-- ==== Sys2Proof/Word.lean ====
section
/-!
DEFINITION. The widths of the machine (00_scope.md R9, R10; 10_state.md R21): 32-bit words, which are register values,
addresses and instruction words alike, 8-bit bytes, and 5-bit register numbers.
-/
namespace Sys2Proof

/-- A 32-bit pattern: a register value, an address or an instruction word (R9, R10, R16). -/
abbrev Word := BitVec 32

/-- One byte of the memory window (R50). -/
abbrev Byte := BitVec 8

/-- A register number 0 to 31, naming x0 to x31 (R21, R96). -/
abbrev Reg := BitVec 5

end Sys2Proof
end

