-- ==== Sys2Proof/Machine/Flags.lean ====
section
/-!
DEFINITION. The core has no flags, condition codes or predicate registers (10_state.md R30), so there is no flag to
compute or hold. What other machines read from flags is here a direct comparison of two words: the conditions of the
branches (R210 to R215) and of the set-less-than instructions (R172, R173, R193, R194).
-/
namespace Sys2Proof.Machine

/-- `a <s b`: both read as two's-complement numbers (R16). -/
def ltSigned (a b : Word) : Bool := decide (a.toInt < b.toInt)

/-- `a <u b`: both read as unsigned numbers (R16). -/
def ltUnsigned (a b : Word) : Bool := decide (a.toNat < b.toNat)

/-- `(c) ? 1 : 0` (R172). -/
def oneIf (c : Bool) : Word := if c then 1 else 0

end Sys2Proof.Machine
end

