-- ==== Sys2Proof/Config.lean ====
section
/-!
DEFINITION. The implementation parameters of 00_scope.md R11 to R13, as plain data, and the literals of the exit
convention that R12 fixes. The spec leaves no value free besides these parameters (R14; 93_implementation_defined.md,
part 1), so this file holds no opaque constant: a parameter is DATA that every state carries along unchanged, and a
statement about every state is a statement about every value of every parameter (notes/assumptions/1.md).
-/
namespace Sys2Proof

/-- The parameters of one core instance. -/
structure Config where
  /-- `MEM_BASE`: the physical address of the first byte of the window (R11). -/
  memBase : Nat
  /-- `MEM_SIZE`: the length of the window in bytes (R11). -/
  memSize : Nat
  /-- `FAIL_CODE_REG`: the register that holds the failure code at an exit ECALL (R12). -/
  failCodeReg : Reg
  /-- `MEM_INIT` (R13): the byte at each window offset after reset, given by its non-zero bytes, offsets rising.
  An offset that is not listed holds 0. Every function from window offsets to bytes has exactly one such list. -/
  memInit : List Host.Cell
  deriving DecidableEq, Repr

namespace Config

/-- The source's values: base 0x8000_0000, 64 KiB, gp, and the simulator's default contents, all zero (R11 to R13). -/
def standard : Config := { memBase := 0x80000000, memSize := 65536, failCodeReg := 3, memInit := [] }

/-- `EXIT_NUM_REG`: a7 (R12, fixed). -/
def exitNumReg : Reg := 17

/-- `EXIT_NUM`: the exit convention's call number (R12, fixed). -/
def exitNum : Word := 93

/-- `STATUS_REG`: a0 (R12, fixed). -/
def statusReg : Reg := 10

end Config
end Sys2Proof
end

