-- ==== Sys2Proof/Machine/State.lean ====
section
/-!
DEFINITION. The state of one core instance (10_state.md R20 to R40) as plain data, the reasons a step can stop, and the
state after reset (R39, R310).
-/
namespace Sys2Proof.Machine

/-- The memory window (R20, R50): the bytes that are not 0, as (physical address, byte), addresses strictly rising.
One address space, no protection, no translation, no device (R50, R61, R62, R65, R69). -/
abbrev Memory := List Host.Cell

/-- What an address of the window that `Memory` does not list reads as. A representation, not an assumption: the bytes
after reset are `Config.memInit`, a parameter (R13). -/
def Memory.unlisted : Byte := 0

/-- The canonical form: addresses strictly rising, and no entry equal to what an unlisted address reads as. -/
abbrev Memory.wf (m : Memory) : Prop :=
  m.Pairwise (fun c d => c.1 < d.1) ∧ ∀ c ∈ m, c.2 ≠ Memory.unlisted

/-- Which access went out of bounds (R34). -/
inductive AccessKind where
  | fetch
  | load
  | store
  deriving DecidableEq, Repr

/-- The fatal-error kinds (R281), with the two fields that only OutOfBounds has (R34). No numeric code (D41). -/
inductive FatalKind where
  /-- A byte of the access lies outside the window; `addr` is the start address of the access (R282, R283). -/
  | outOfBounds (access : AccessKind) (addr : Word)
  /-- The word matches no row of the table (R284). -/
  | unknownInstruction
  /-- ECALL with `x[17] != 93` (R252, R285). -/
  | unsupportedEnvironmentCall
  /-- EBREAK (R253, R286). -/
  | breakpoint
  deriving DecidableEq, Repr

/-- The fatal-error record `info` (R34): `word` is `none` when the fetch itself failed. -/
structure FatalInfo where
  kind : FatalKind
  pc : Word
  word : Option Word
  deriving DecidableEq, Repr

/-- The run status (R33). Every status but `running` is terminal. -/
inductive Status where
  | running
  | haltedSuccess
  | haltedFailure (code : Word)
  | fatal (info : FatalInfo)
  deriving DecidableEq, Repr

/-- The state tuple `(x[1..31], pc, mem, status, entry)` of R20, and beside it the instance's parameters, which are
configuration and not state (R20): no operation writes `cfg` (notes/assumptions/1.md). -/
structure State where
  /-- x1 to x31, x1 first; x0 is not stored (R20, R22). -/
  x : Vector Word 31
  /-- The program counter (R26). -/
  pc : Word
  /-- The memory window (R50). -/
  mem : Memory
  /-- The run status (R33). -/
  status : Status
  /-- The entry register, which only the host writes (R35). -/
  entry : Word
  /-- The parameters of R11 to R13. -/
  cfg : Config
  deriving DecidableEq, Repr

/-- Why the machine takes no step. -/
inductive Fault where
  /-- Raised by `step` alone, when the status is not `running`: "From any other status there is no step" (R121). SAFE:
  the hardware takes no step either. No meaning of an instruction answers with it. -/
  | notRunning
  deriving DecidableEq, Repr

/-- Why an instruction is refused. -/
inductive Refusal where
  /-- An instruction of the table that has no meaning yet: raised by an arm of `exec` alone. SAFE. No arm raises it. -/
  | notModelled (mnemonic : String)
  deriving DecidableEq, Repr

/-- The contents of the window after reset: `mem[off] = MEM_INIT(off)` for each offset (R13, R310). -/
def initialMemory (c : Config) : Memory := c.memInit.map (fun cell => (c.memBase + cell.1, cell.2))

/-- The state after reset of an instance with the given parameters (R39, R310, R313). -/
def State.resetWith (c : Config) : State :=
  { x := Vector.replicate 31 0, pc := 0, mem := initialMemory c, status := .running, entry := 0, cfg := c }

/-- The state after reset with the source's parameters (R11 to R13, R39). -/
def State.reset : State := State.resetWith Config.standard

end Sys2Proof.Machine
end

