-- ==== Sys2Proof/Machine/Ops.lean ====
section
/-!
DEFINITION. The named operations over registers, memory and the run status that every meaning is written with:
`x[i]` and `x[i] <- v` (R18, R22), the bounds check (R52), MemRead and MemWrite (R55, R56), FetchWord (R57), and the
ends of a step (R122): continue, halt and raise. `raise` is this core's taking of an exception (R281): there is no trap
mechanism, so it saves nothing but the record and goes nowhere (R280, R292). There is no return from one (R293).
-/
namespace Sys2Proof.Machine

/-! ### Updates of one field -/

/-- `pc <- v` (R26). -/
def State.setPc (s : State) (v : Word) : State := { s with pc := v }

/-- The state with other memory contents. -/
def State.setMem (s : State) (m : Memory) : State := { s with mem := m }

/-- `status <- st` (R33). -/
def State.setStatus (s : State) (st : Status) : State := { s with status := st }

/-- `entry <- v` (R35). -/
def State.setEntry (s : State) (v : Word) : State := { s with entry := v }

/-! ### General registers -/

/-- Where `x` holds x1 to x31: register `r` is at index `r - 1` (R20). -/
def regIndex (r : Reg) : Fin 31 := ⟨r.toNat - 1, by have := r.isLt; omega⟩

/-- `x[r]`; x0 reads 0 (R18, R22). -/
def State.readReg (s : State) (r : Reg) : Word := if r = 0 then 0 else s.x.get (regIndex r)

/-- `x[r] <- v`; a write to x0 is discarded (R18, R22). -/
def State.writeReg (s : State) (r : Reg) (v : Word) : State :=
  if r = 0 then s else { s with x := s.x.set (regIndex r).val v (regIndex r).isLt }

/-! ### Memory -/

/-- The byte at a physical address. -/
def Memory.read : Memory → Nat → Byte
  | [], _ => Memory.unlisted
  | c :: m, a => if a = c.1 then c.2 else Memory.read m a

/-- The memory with one byte replaced, kept in canonical form. -/
def Memory.write : Memory → Nat → Byte → Memory
  | [], a, b => if b = Memory.unlisted then [] else [(a, b)]
  | c :: m, a, b =>
    if a < c.1 then (if b = Memory.unlisted then c :: m else (a, b) :: c :: m)
    else if a = c.1 then (if b = Memory.unlisted then m else (a, b) :: m)
    else c :: Memory.write m a b

/-- `InBounds(addr, n)` (R52): the offset is a mathematical integer and does not wrap. -/
def inBounds (c : Config) (addr : Word) (n : Nat) : Bool :=
  let off : Int := (addr.toNat : Int) - (c.memBase : Int)
  decide (0 ≤ off ∧ off + (n : Int) ≤ (c.memSize : Int))

/-- The little-endian composition of `n` bytes from address `a` on: the sum of `mem[a + i] << (8 * i)` (R55). -/
def Memory.readLE (m : Memory) (a : Nat) : Nat → Nat
  | 0 => 0
  | n + 1 => (m.read a).toNat + 256 * Memory.readLE m (a + 1) n

/-- The low `n` bytes of `v` written from address `a` on, least significant first (R56). -/
def Memory.writeLE (m : Memory) (a : Nat) : Nat → Word → Memory
  | 0, _ => m
  | n + 1, v => Memory.writeLE (m.write a (v.setWidth 8)) (a + 1) n (v >>> 8)

/-- `MemRead(addr, n)`, an unsigned value of `8n` bits; `none` when the check fails (R55). Changes no state. -/
def memRead (s : State) (addr : Word) (n : Nat) : Option Nat :=
  if inBounds s.cfg addr n then some (s.mem.readLE addr.toNat n) else none

/-- `MemWrite(addr, n, v)`; `none`, and no byte written, when the check fails (R56). -/
def memWrite (s : State) (addr : Word) (n : Nat) (v : Word) : Option State :=
  if inBounds s.cfg addr n then some (s.setMem (s.mem.writeLE addr.toNat n v)) else none

/-- `FetchWord(pc)` (R57): the four bytes at the program counter, at any alignment (R28, R59). A program counter that
wrapped modulo 2^32 is checked like any other (R52): it fetches where the window holds its four bytes. DEDUCED, unsafe:
R29 says that it never does, and with a window that R11 allows it can (notes/assumptions/15.md). -/
def fetchWord (s : State) : Option Word := (memRead s s.pc 4).map (BitVec.ofNat 32)

/-! ### The ends of a step -/

/-- What a meaning answers. -/
abbrev Result := Host.Outcome State Fault Refusal

/-- `Raise(info)` (R122, R281): taking an exception. Only the status changes; the record names the kind, the address of
the step's instruction and its word (R34, R125, R288). -/
def raise (kind : FatalKind) (word : Option Word) (s : State) : State :=
  s.setStatus (.fatal { kind := kind, pc := s.pc, word := word })

/-- `Halt(outcome)` (R122): only the status changes (R250). -/
def halt (outcome : Status) (s : State) : State := s.setStatus outcome

/-- `Continue(target)` with the register write `x[rd] <- v`: both land together, after every read (R122, R123). -/
def continueWith (rd : Reg) (v : Word) (target : Word) (s : State) : State := (s.writeReg rd v).setPc target

/-- The default advance, `pc + 4` modulo 2^32 (R29, R124); where it wraps, see notes/assumptions/15.md. -/
def nextPc (s : State) : Word := s.pc + 4

/-- `x[rd] <- v; pc <- pc + 4`. -/
def writeAndAdvance (rd : Reg) (v : Word) (s : State) : Result := .next (continueWith rd v (nextPc s) s)

/-- `pc <- pc + 4` and nothing else: the recognised instructions with no effect (R254 to R264, R270, R271). -/
def advanceOnly (s : State) : Result := .next (s.setPc (nextPc s))

end Sys2Proof.Machine
end

