-- ==== Sys2Proof/Machine/Operands.lean ====
section
/-!
DEFINITION. The operand forms: sign and zero extension (00_scope.md R17), the immediates (30_encoding.md R90 to R95)
and the one addressing mode (46_load_store.md R230). A register operand is `State.readReg` (R96).
-/
namespace Sys2Proof.Machine

/-- `sext_n(v)`: the low `n` bits of `v` read as a two's-complement number, as a 32-bit pattern (R17). -/
def sext (n : Nat) (v : Word) : Word := (v.setWidth n).signExtend 32

/-- `zext_n(v)`: the low `n` bits of `v`, zeros above (R17). -/
def zext (n : Nat) (v : Word) : Word := (v.setWidth n).setWidth 32

/-- `imm_I = sext_12(bits[31:20])` (R90). -/
def immI (field : BitVec 12) : Word := sext 12 (field.setWidth 32)

/-- `imm_S = sext_12({bits[31:25], bits[11:7]})` (R91). -/
def immS (field : BitVec 12) : Word := sext 12 (field.setWidth 32)

/-- `imm_B = sext_13(...)` (R92). -/
def immB (field : BitVec 13) : Word := sext 13 (field.setWidth 32)

/-- `imm_U = {bits[31:12], 12'b0}` (R93). -/
def immU (field : BitVec 20) : Word := field ++ 0#12

/-- `imm_J = sext_21(...)` (R94). -/
def immJ (field : BitVec 21) : Word := sext 21 (field.setWidth 32)

/-- The shift amount of a register shift: `x[rs2] & 0x1F` (44_alu_register.md, R170). -/
def shiftAmount (v : Word) : Nat := (v &&& 0x1F).toNat

/-- The effective address of a load, `x[rs1] + imm_I` modulo 2^32 (R230). -/
def loadAddress (rs1 : Reg) (imm : BitVec 12) (s : State) : Word := s.readReg rs1 + immI imm

/-- The effective address of a store, `x[rs1] + imm_S` modulo 2^32 (R230). -/
def storeAddress (rs1 : Reg) (imm : BitVec 12) (s : State) : Word := s.readReg rs1 + immS imm

end Sys2Proof.Machine
end

