-- ==== Sys2Proof/Machine/AluImm.lean ====
section
/-!
DEFINITION. The immediate ALU instructions (43_alu_immediate.md). Each ends with `pc <- pc + 4` and raises nothing.
-/
namespace Sys2Proof.Machine

/-- ADDI (R171): modulo 2^32. -/
def execAddi (rd rs1 : Reg) (imm : BitVec 12) (s : State) : Result :=
  writeAndAdvance rd (s.readReg rs1 + immI imm) s

/-- SLTI (R172): signed. -/
def execSlti (rd rs1 : Reg) (imm : BitVec 12) (s : State) : Result :=
  writeAndAdvance rd (oneIf (ltSigned (s.readReg rs1) (immI imm))) s

/-- SLTIU (R173): the immediate is sign-extended, then compared as unsigned. -/
def execSltiu (rd rs1 : Reg) (imm : BitVec 12) (s : State) : Result :=
  writeAndAdvance rd (oneIf (ltUnsigned (s.readReg rs1) (immI imm))) s

/-- XORI (R174). -/
def execXori (rd rs1 : Reg) (imm : BitVec 12) (s : State) : Result :=
  writeAndAdvance rd (s.readReg rs1 ^^^ immI imm) s

/-- ORI (R175). -/
def execOri (rd rs1 : Reg) (imm : BitVec 12) (s : State) : Result :=
  writeAndAdvance rd (s.readReg rs1 ||| immI imm) s

/-- ANDI (R176). -/
def execAndi (rd rs1 : Reg) (imm : BitVec 12) (s : State) : Result :=
  writeAndAdvance rd (s.readReg rs1 &&& immI imm) s

/-- SLLI (R177). -/
def execSlli (rd rs1 : Reg) (shamt : BitVec 5) (s : State) : Result :=
  writeAndAdvance rd (s.readReg rs1 <<< shamt.toNat) s

/-- SRLI (R178): zeros in. -/
def execSrli (rd rs1 : Reg) (shamt : BitVec 5) (s : State) : Result :=
  writeAndAdvance rd (s.readReg rs1 >>> shamt.toNat) s

/-- SRAI (R179): copies of bit 31 in. -/
def execSrai (rd rs1 : Reg) (shamt : BitVec 5) (s : State) : Result :=
  writeAndAdvance rd ((s.readReg rs1).sshiftRight shamt.toNat) s

end Sys2Proof.Machine
end

