-- ==== Sys2Proof/Machine/AluReg.lean ====
section
/-!
DEFINITION. The register ALU instructions (44_alu_register.md). Each ends with `pc <- pc + 4` and raises nothing. A
shift uses only the low five bits of `x[rs2]`.
-/
namespace Sys2Proof.Machine

/-- ADD (R190): modulo 2^32. -/
def execAdd (rd rs1 rs2 : Reg) (s : State) : Result := writeAndAdvance rd (s.readReg rs1 + s.readReg rs2) s

/-- SUB (R191): modulo 2^32. -/
def execSub (rd rs1 rs2 : Reg) (s : State) : Result := writeAndAdvance rd (s.readReg rs1 - s.readReg rs2) s

/-- SLL (R192). -/
def execSll (rd rs1 rs2 : Reg) (s : State) : Result :=
  writeAndAdvance rd (s.readReg rs1 <<< shiftAmount (s.readReg rs2)) s

/-- SLT (R193): signed. -/
def execSlt (rd rs1 rs2 : Reg) (s : State) : Result :=
  writeAndAdvance rd (oneIf (ltSigned (s.readReg rs1) (s.readReg rs2))) s

/-- SLTU (R194): unsigned. -/
def execSltu (rd rs1 rs2 : Reg) (s : State) : Result :=
  writeAndAdvance rd (oneIf (ltUnsigned (s.readReg rs1) (s.readReg rs2))) s

/-- XOR (R195). -/
def execXor (rd rs1 rs2 : Reg) (s : State) : Result := writeAndAdvance rd (s.readReg rs1 ^^^ s.readReg rs2) s

/-- SRL (R196): zeros in. -/
def execSrl (rd rs1 rs2 : Reg) (s : State) : Result :=
  writeAndAdvance rd (s.readReg rs1 >>> shiftAmount (s.readReg rs2)) s

/-- SRA (R197): copies of bit 31 in. -/
def execSra (rd rs1 rs2 : Reg) (s : State) : Result :=
  writeAndAdvance rd ((s.readReg rs1).sshiftRight (shiftAmount (s.readReg rs2))) s

/-- OR (R198). -/
def execOr (rd rs1 rs2 : Reg) (s : State) : Result := writeAndAdvance rd (s.readReg rs1 ||| s.readReg rs2) s

/-- AND (R199). -/
def execAnd (rd rs1 rs2 : Reg) (s : State) : Result := writeAndAdvance rd (s.readReg rs1 &&& s.readReg rs2) s

end Sys2Proof.Machine
end

