-- ==== Sys2Proof/Machine/Branch.lean ====
section
/-!
DEFINITION. The conditional branches (45_branches.md). No branch writes a register or memory, and none fails in its
execute phase (R216).
-/
namespace Sys2Proof.Machine

/-- `if cond then pc <- pc + off else pc <- pc + 4` (R216). -/
def branchIf (cond : Bool) (off : BitVec 13) (s : State) : Result :=
  .next (s.setPc (if cond then s.pc + immB off else nextPc s))

/-- BEQ (R210). -/
def execBeq (rs1 rs2 : Reg) (off : BitVec 13) (s : State) : Result :=
  branchIf (s.readReg rs1 == s.readReg rs2) off s

/-- BNE (R211). -/
def execBne (rs1 rs2 : Reg) (off : BitVec 13) (s : State) : Result :=
  branchIf (s.readReg rs1 != s.readReg rs2) off s

/-- BLT (R212): signed. -/
def execBlt (rs1 rs2 : Reg) (off : BitVec 13) (s : State) : Result :=
  branchIf (ltSigned (s.readReg rs1) (s.readReg rs2)) off s

/-- BGE (R213): signed. -/
def execBge (rs1 rs2 : Reg) (off : BitVec 13) (s : State) : Result :=
  branchIf (!ltSigned (s.readReg rs1) (s.readReg rs2)) off s

/-- BLTU (R214): unsigned. -/
def execBltu (rs1 rs2 : Reg) (off : BitVec 13) (s : State) : Result :=
  branchIf (ltUnsigned (s.readReg rs1) (s.readReg rs2)) off s

/-- BGEU (R215): unsigned. -/
def execBgeu (rs1 rs2 : Reg) (off : BitVec 13) (s : State) : Result :=
  branchIf (!ltUnsigned (s.readReg rs1) (s.readReg rs2)) off s

end Sys2Proof.Machine
end

