-- ==== Sys2Proof/Machine/Fence.lean ====
section
/-!
DEFINITION. The memory fences (48_misc_mem.md). Memory is sequentially consistent with one agent, and a fetch already
sees every earlier store (R66, R68), so there is nothing to order: both only advance `pc`, whatever their fields (R100).
-/
namespace Sys2Proof.Machine

/-- FENCE (R270). -/
def execFence (s : State) : Result := advanceOnly s

/-- FENCE.I (R271). -/
def execFenceI (s : State) : Result := advanceOnly s

end Sys2Proof.Machine
end

