-- ==== Sys2Proof/Machine/Jump.lean ====
section
/-!
DEFINITION. The jumps (42_jumps.md). A target is not checked: there is no misaligned-target exception (R28), and one
outside the window fails at the next fetch (R282).
-/
namespace Sys2Proof.Machine

/-- JAL (R160): `x[rd] <- pc + 4; pc <- pc + imm_J`. -/
def execJal (rd : Reg) (off : BitVec 21) (s : State) : Result :=
  .next (continueWith rd (nextPc s) (s.pc + immJ off) s)

/-- JALR (R161): the target is `(x[rs1] + imm_I) & 0xFFFFFFFE`, with the old `x[rs1]` when `rd = rs1` (R123). -/
def execJalr (rd rs1 : Reg) (imm : BitVec 12) (s : State) : Result :=
  .next (continueWith rd (nextPc s) ((s.readReg rs1 + immI imm) &&& 0xFFFFFFFE) s)

end Sys2Proof.Machine
end

