-- ==== Sys2Proof/Syntax.lean ====
section
/-!
DEFINITION. The instructions: one constructor per row of spec/opcode_table.json, in the table's order (R3, R98).
Immediates are the encoded fields, assembled but not yet extended: 12 bits for I and S (R90, R91), a 13-bit and a
21-bit byte offset for B and J (R92, R94), the 20 bits `bits[31:12]` for U (R93), a 5-bit shift amount (R95).
The fields the core ignores (FENCE, FENCE.I, SFENCE.VMA and the CSR instructions, R100) are kept as operands, so that
no bit of a word is lost; no meaning reads them (notes/assumptions/2.md).
-/
namespace Sys2Proof

/-- An instruction (R3, R98). -/
inductive Instr where
  /-- R150 -/
  | lui (rd : Reg) (imm : BitVec 20)
  /-- R151 -/
  | auipc (rd : Reg) (imm : BitVec 20)
  /-- R160 -/
  | jal (rd : Reg) (off : BitVec 21)
  /-- R161 -/
  | jalr (rd rs1 : Reg) (imm : BitVec 12)
  /-- R210 -/
  | beq (rs1 rs2 : Reg) (off : BitVec 13)
  /-- R211 -/
  | bne (rs1 rs2 : Reg) (off : BitVec 13)
  /-- R212 -/
  | blt (rs1 rs2 : Reg) (off : BitVec 13)
  /-- R213 -/
  | bge (rs1 rs2 : Reg) (off : BitVec 13)
  /-- R214 -/
  | bltu (rs1 rs2 : Reg) (off : BitVec 13)
  /-- R215 -/
  | bgeu (rs1 rs2 : Reg) (off : BitVec 13)
  /-- R231 -/
  | lb (rd rs1 : Reg) (imm : BitVec 12)
  /-- R232 -/
  | lh (rd rs1 : Reg) (imm : BitVec 12)
  /-- R233 -/
  | lw (rd rs1 : Reg) (imm : BitVec 12)
  /-- R234 -/
  | lbu (rd rs1 : Reg) (imm : BitVec 12)
  /-- R235 -/
  | lhu (rd rs1 : Reg) (imm : BitVec 12)
  /-- R236 -/
  | sb (rs1 rs2 : Reg) (imm : BitVec 12)
  /-- R237 -/
  | sh (rs1 rs2 : Reg) (imm : BitVec 12)
  /-- R238 -/
  | sw (rs1 rs2 : Reg) (imm : BitVec 12)
  /-- R171 -/
  | addi (rd rs1 : Reg) (imm : BitVec 12)
  /-- R172 -/
  | slti (rd rs1 : Reg) (imm : BitVec 12)
  /-- R173 -/
  | sltiu (rd rs1 : Reg) (imm : BitVec 12)
  /-- R174 -/
  | xori (rd rs1 : Reg) (imm : BitVec 12)
  /-- R175 -/
  | ori (rd rs1 : Reg) (imm : BitVec 12)
  /-- R176 -/
  | andi (rd rs1 : Reg) (imm : BitVec 12)
  /-- R177 -/
  | slli (rd rs1 : Reg) (shamt : BitVec 5)
  /-- R178 -/
  | srli (rd rs1 : Reg) (shamt : BitVec 5)
  /-- R179 -/
  | srai (rd rs1 : Reg) (shamt : BitVec 5)
  /-- R190 -/
  | add (rd rs1 rs2 : Reg)
  /-- R191 -/
  | sub (rd rs1 rs2 : Reg)
  /-- R192 -/
  | sll (rd rs1 rs2 : Reg)
  /-- R193 -/
  | slt (rd rs1 rs2 : Reg)
  /-- R194 -/
  | sltu (rd rs1 rs2 : Reg)
  /-- R195 -/
  | xor (rd rs1 rs2 : Reg)
  /-- R196 -/
  | srl (rd rs1 rs2 : Reg)
  /-- R197 -/
  | sra (rd rs1 rs2 : Reg)
  /-- R198 -/
  | or (rd rs1 rs2 : Reg)
  /-- R199 -/
  | and (rd rs1 rs2 : Reg)
  /-- R270; every operand is ignored (R100) -/
  | fence (fm pred succ : BitVec 4) (rs1 rd : Reg)
  /-- R271; every operand is ignored (R100) -/
  | fenceI (imm : BitVec 12) (rs1 rd : Reg)
  /-- R250 -/
  | ecall
  /-- R253 -/
  | ebreak
  /-- R254 -/
  | mret
  /-- R255 -/
  | sret
  /-- R256 -/
  | wfi
  /-- R257; both operands are ignored (R100) -/
  | sfenceVma (rs1 rs2 : Reg)
  /-- R259; every operand is ignored (R100, R258) -/
  | csrrw (rd : Reg) (csr : BitVec 12) (rs1 : Reg)
  /-- R260; every operand is ignored (R100, R258) -/
  | csrrs (rd : Reg) (csr : BitVec 12) (rs1 : Reg)
  /-- R261; every operand is ignored (R100, R258) -/
  | csrrc (rd : Reg) (csr : BitVec 12) (rs1 : Reg)
  /-- R262; every operand is ignored (R100, R258) -/
  | csrrwi (rd : Reg) (csr : BitVec 12) (uimm : BitVec 5)
  /-- R263; every operand is ignored (R100, R258) -/
  | csrrsi (rd : Reg) (csr : BitVec 12) (uimm : BitVec 5)
  /-- R264; every operand is ignored (R100, R258) -/
  | csrrci (rd : Reg) (csr : BitVec 12) (uimm : BitVec 5)
  deriving DecidableEq, Repr

end Sys2Proof
end

