-- ==== Sys2Proof/Decode.lean ====
section
/-!
DEFINITION. The decoder (30_encoding.md R80 to R104) and, after it, the encoder. A word is the instruction of a row of
the table exactly when `word AND mask = match` (the head of 30_encoding.md; R98); a word that matches no row is unknown
(R99, R104). The field positions are R83 to R88. Every opcode, funct3 and funct7 number is the spec's own general
knowledge (91_not_in_source.md N1, decision D22).
-/
namespace Sys2Proof

/-! ### Fields of a word -/

/-- `bits[hi:lo]` of the word (R15, R81). -/
def bits (w : Word) (hi lo : Nat) : BitVec (hi - lo + 1) := w.extractLsb hi lo

/-- `rd = bits[11:7]` (R83). -/
def rdField (w : Word) : Reg := bits w 11 7

/-- `rs1 = bits[19:15]` (R83). -/
def rs1Field (w : Word) : Reg := bits w 19 15

/-- `rs2 = bits[24:20]` (R83). -/
def rs2Field (w : Word) : Reg := bits w 24 20

/-- `shamt = bits[24:20]` of a shift-immediate word (R95). -/
def shamtField (w : Word) : BitVec 5 := bits w 24 20

/-- The I-type field `bits[31:20]` (R84). -/
def immIField (w : Word) : BitVec 12 := bits w 31 20

/-- The S-type field (R85): `{bits[31:25], bits[11:7]}`. -/
def immSField (w : Word) : BitVec 12 := bits w 31 25 ++ bits w 11 7

/-- The B-type field (R86, R92): `{bits[31], bits[7], bits[30:25], bits[11:8], 1'b0}`. -/
def immBField (w : Word) : BitVec 13 := bits w 31 31 ++ bits w 7 7 ++ bits w 30 25 ++ bits w 11 8 ++ 0#1

/-- The U-type field `bits[31:12]` (R87). -/
def immUField (w : Word) : BitVec 20 := bits w 31 12

/-- The J-type field (R88, R94): `{bits[31], bits[19:12], bits[20], bits[30:21], 1'b0}`. -/
def immJField (w : Word) : BitVec 21 := bits w 31 31 ++ bits w 19 12 ++ bits w 20 20 ++ bits w 30 21 ++ 0#1

/-! ### The decode table -/

/-- One row of spec/opcode_table.json: `build` reads the operands of a word that the row matches. -/
structure Row where
  mnemonic : String
  mask : Word
  pattern : Word
  build : Word → Instr

/-- The word is the row's instruction: `w AND mask = match`. -/
def Row.matchesWord (r : Row) (w : Word) : Bool := w &&& r.mask == r.pattern

/-- The rows of 41_upper_immediate.md. -/
def rowsUpper : List Row := [
  ⟨"LUI", 0x0000007F, 0x00000037, fun w => .lui (rdField w) (immUField w)⟩,
  ⟨"AUIPC", 0x0000007F, 0x00000017, fun w => .auipc (rdField w) (immUField w)⟩]

/-- The rows of 42_jumps.md. -/
def rowsJump : List Row := [
  ⟨"JAL", 0x0000007F, 0x0000006F, fun w => .jal (rdField w) (immJField w)⟩,
  ⟨"JALR", 0x0000707F, 0x00000067, fun w => .jalr (rdField w) (rs1Field w) (immIField w)⟩]

/-- The rows of 45_branches.md. -/
def rowsBranch : List Row := [
  ⟨"BEQ", 0x0000707F, 0x00000063, fun w => .beq (rs1Field w) (rs2Field w) (immBField w)⟩,
  ⟨"BNE", 0x0000707F, 0x00001063, fun w => .bne (rs1Field w) (rs2Field w) (immBField w)⟩,
  ⟨"BLT", 0x0000707F, 0x00004063, fun w => .blt (rs1Field w) (rs2Field w) (immBField w)⟩,
  ⟨"BGE", 0x0000707F, 0x00005063, fun w => .bge (rs1Field w) (rs2Field w) (immBField w)⟩,
  ⟨"BLTU", 0x0000707F, 0x00006063, fun w => .bltu (rs1Field w) (rs2Field w) (immBField w)⟩,
  ⟨"BGEU", 0x0000707F, 0x00007063, fun w => .bgeu (rs1Field w) (rs2Field w) (immBField w)⟩]

/-- The rows of 46_load_store.md. -/
def rowsLoad : List Row := [
  ⟨"LB", 0x0000707F, 0x00000003, fun w => .lb (rdField w) (rs1Field w) (immIField w)⟩,
  ⟨"LH", 0x0000707F, 0x00001003, fun w => .lh (rdField w) (rs1Field w) (immIField w)⟩,
  ⟨"LW", 0x0000707F, 0x00002003, fun w => .lw (rdField w) (rs1Field w) (immIField w)⟩,
  ⟨"LBU", 0x0000707F, 0x00004003, fun w => .lbu (rdField w) (rs1Field w) (immIField w)⟩,
  ⟨"LHU", 0x0000707F, 0x00005003, fun w => .lhu (rdField w) (rs1Field w) (immIField w)⟩]

/-- The rows of 46_load_store.md. -/
def rowsStore : List Row := [
  ⟨"SB", 0x0000707F, 0x00000023, fun w => .sb (rs1Field w) (rs2Field w) (immSField w)⟩,
  ⟨"SH", 0x0000707F, 0x00001023, fun w => .sh (rs1Field w) (rs2Field w) (immSField w)⟩,
  ⟨"SW", 0x0000707F, 0x00002023, fun w => .sw (rs1Field w) (rs2Field w) (immSField w)⟩]

/-- The rows of 43_alu_immediate.md. -/
def rowsAluImm : List Row := [
  ⟨"ADDI", 0x0000707F, 0x00000013, fun w => .addi (rdField w) (rs1Field w) (immIField w)⟩,
  ⟨"SLTI", 0x0000707F, 0x00002013, fun w => .slti (rdField w) (rs1Field w) (immIField w)⟩,
  ⟨"SLTIU", 0x0000707F, 0x00003013, fun w => .sltiu (rdField w) (rs1Field w) (immIField w)⟩,
  ⟨"XORI", 0x0000707F, 0x00004013, fun w => .xori (rdField w) (rs1Field w) (immIField w)⟩,
  ⟨"ORI", 0x0000707F, 0x00006013, fun w => .ori (rdField w) (rs1Field w) (immIField w)⟩,
  ⟨"ANDI", 0x0000707F, 0x00007013, fun w => .andi (rdField w) (rs1Field w) (immIField w)⟩,
  ⟨"SLLI", 0xFE00707F, 0x00001013, fun w => .slli (rdField w) (rs1Field w) (shamtField w)⟩,
  ⟨"SRLI", 0xFE00707F, 0x00005013, fun w => .srli (rdField w) (rs1Field w) (shamtField w)⟩,
  ⟨"SRAI", 0xFE00707F, 0x40005013, fun w => .srai (rdField w) (rs1Field w) (shamtField w)⟩]

/-- The rows of 44_alu_register.md. -/
def rowsAluReg : List Row := [
  ⟨"ADD", 0xFE00707F, 0x00000033, fun w => .add (rdField w) (rs1Field w) (rs2Field w)⟩,
  ⟨"SUB", 0xFE00707F, 0x40000033, fun w => .sub (rdField w) (rs1Field w) (rs2Field w)⟩,
  ⟨"SLL", 0xFE00707F, 0x00001033, fun w => .sll (rdField w) (rs1Field w) (rs2Field w)⟩,
  ⟨"SLT", 0xFE00707F, 0x00002033, fun w => .slt (rdField w) (rs1Field w) (rs2Field w)⟩,
  ⟨"SLTU", 0xFE00707F, 0x00003033, fun w => .sltu (rdField w) (rs1Field w) (rs2Field w)⟩,
  ⟨"XOR", 0xFE00707F, 0x00004033, fun w => .xor (rdField w) (rs1Field w) (rs2Field w)⟩,
  ⟨"SRL", 0xFE00707F, 0x00005033, fun w => .srl (rdField w) (rs1Field w) (rs2Field w)⟩,
  ⟨"SRA", 0xFE00707F, 0x40005033, fun w => .sra (rdField w) (rs1Field w) (rs2Field w)⟩,
  ⟨"OR", 0xFE00707F, 0x00006033, fun w => .or (rdField w) (rs1Field w) (rs2Field w)⟩,
  ⟨"AND", 0xFE00707F, 0x00007033, fun w => .and (rdField w) (rs1Field w) (rs2Field w)⟩]

/-- The rows of 48_misc_mem.md. -/
def rowsFence : List Row := [
  ⟨"FENCE", 0x0000707F, 0x0000000F, fun w => .fence (bits w 31 28) (bits w 27 24) (bits w 23 20) (rs1Field w) (rdField w)⟩,
  ⟨"FENCE.I", 0x0000707F, 0x0000100F, fun w => .fenceI (immIField w) (rs1Field w) (rdField w)⟩]

/-- The rows of 47_system.md. -/
def rowsSystem : List Row := [
  ⟨"ECALL", 0xFFFFFFFF, 0x00000073, fun _ => .ecall⟩,
  ⟨"EBREAK", 0xFFFFFFFF, 0x00100073, fun _ => .ebreak⟩,
  ⟨"MRET", 0xFFFFFFFF, 0x30200073, fun _ => .mret⟩,
  ⟨"SRET", 0xFFFFFFFF, 0x10200073, fun _ => .sret⟩,
  ⟨"WFI", 0xFFFFFFFF, 0x10500073, fun _ => .wfi⟩,
  ⟨"SFENCE.VMA", 0xFE007FFF, 0x12000073, fun w => .sfenceVma (rs1Field w) (rs2Field w)⟩,
  ⟨"CSRRW", 0x0000707F, 0x00001073, fun w => .csrrw (rdField w) (immIField w) (rs1Field w)⟩,
  ⟨"CSRRS", 0x0000707F, 0x00002073, fun w => .csrrs (rdField w) (immIField w) (rs1Field w)⟩,
  ⟨"CSRRC", 0x0000707F, 0x00003073, fun w => .csrrc (rdField w) (immIField w) (rs1Field w)⟩,
  ⟨"CSRRWI", 0x0000707F, 0x00005073, fun w => .csrrwi (rdField w) (immIField w) (rs1Field w)⟩,
  ⟨"CSRRSI", 0x0000707F, 0x00006073, fun w => .csrrsi (rdField w) (immIField w) (rs1Field w)⟩,
  ⟨"CSRRCI", 0x0000707F, 0x00007073, fun w => .csrrci (rdField w) (immIField w) (rs1Field w)⟩]

/-- The whole table (R98). No two of its rows match one word, so their order decides nothing. -/
def decodeTable : List Row :=
  rowsUpper ++ rowsJump ++ rowsBranch ++ rowsLoad ++ rowsStore ++ rowsAluImm ++ rowsAluReg ++ rowsFence ++ rowsSystem

/-- The instruction a word stands for; `none` is the verdict "unknown" (R99, R104). Total, and reads no state. -/
def decode (w : Word) : Option Instr := (decodeTable.find? (·.matchesWord w)).map (·.build w)

/-! ### Bytes -/

/-- Why bytes are not an instruction. -/
inductive DecodeError where
  /-- The four bytes form a word that matches no row (R99): the step raises UnknownInstruction. -/
  | unknownInstruction (w : Word)
  /-- Fewer than four bytes are left: every instruction is one 32-bit word (R80). -/
  | truncated (length : Nat)
  deriving DecidableEq, Repr

/-- The word of four bytes, the first at the lowest address and least significant (R53, R80). -/
def wordOfBytes (b0 b1 b2 b3 : Byte) : Word := b3 ++ b2 ++ b1 ++ b0

/-- The four bytes of a word, the byte of the lowest address first (R53). -/
def bytesOfWord (w : Word) : List Byte := [bits w 7 0, bits w 15 8, bits w 23 16, bits w 31 24]

/-- Decode the first instruction of a list of bytes: the instruction and the bytes after it, or why not (R80, R99). -/
def decodeBytes : List Byte → Except DecodeError (Instr × List Byte)
  | b0 :: b1 :: b2 :: b3 :: rest =>
    match decode (wordOfBytes b0 b1 b2 b3) with
    | some i => .ok (i, rest)
    | none => .error (.unknownInstruction (wordOfBytes b0 b1 b2 b3))
  | short => .error (.truncated short.length)

/-- The word whose low `nbits` bits are those of `w` and whose other bits are 0. -/
def tableWord (nbits w : Nat) : Word := BitVec.ofNat 32 (w % 2 ^ nbits)

/-- What the decoder reads from the table word of `nbits` bits `w`, laid out in memory order. -/
def decodeTableWord (nbits w : Nat) : Option Instr :=
  match decodeBytes (bytesOfWord (tableWord nbits w)) with
  | .ok (i, _) => some i
  | .error _ => none

/-! ### The encoder -/

/-- R-type (R83). -/
def encodeR (funct7 : BitVec 7) (rs2 rs1 : Reg) (funct3 : BitVec 3) (rd : Reg) (opcode : BitVec 7) : Word :=
  funct7 ++ rs2 ++ rs1 ++ funct3 ++ rd ++ opcode

/-- I-type (R84). -/
def encodeI (imm : BitVec 12) (rs1 : Reg) (funct3 : BitVec 3) (rd : Reg) (opcode : BitVec 7) : Word :=
  imm ++ rs1 ++ funct3 ++ rd ++ opcode

/-- S-type (R85). -/
def encodeS (imm : BitVec 12) (rs2 rs1 : Reg) (funct3 : BitVec 3) (opcode : BitVec 7) : Word :=
  imm.extractLsb 11 5 ++ rs2 ++ rs1 ++ funct3 ++ imm.extractLsb 4 0 ++ opcode

/-- B-type (R86). Bit 0 of the offset is not encoded. -/
def encodeB (off : BitVec 13) (rs2 rs1 : Reg) (funct3 : BitVec 3) (opcode : BitVec 7) : Word :=
  off.extractLsb 12 12 ++ off.extractLsb 10 5 ++ rs2 ++ rs1 ++ funct3 ++ off.extractLsb 4 1 ++ off.extractLsb 11 11
    ++ opcode

/-- U-type (R87). -/
def encodeU (imm : BitVec 20) (rd : Reg) (opcode : BitVec 7) : Word := imm ++ rd ++ opcode

/-- J-type (R88). Bit 0 of the offset is not encoded. -/
def encodeJ (off : BitVec 21) (rd : Reg) (opcode : BitVec 7) : Word :=
  off.extractLsb 20 20 ++ off.extractLsb 10 1 ++ off.extractLsb 11 11 ++ off.extractLsb 19 12 ++ rd ++ opcode

/-- LOAD (R97). -/
def opLoad : BitVec 7 := 0b0000011

/-- MISC-MEM (R97). -/
def opMiscMem : BitVec 7 := 0b0001111

/-- OP-IMM (R97). -/
def opImm : BitVec 7 := 0b0010011

/-- AUIPC (R97). -/
def opAuipc : BitVec 7 := 0b0010111

/-- STORE (R97). -/
def opStore : BitVec 7 := 0b0100011

/-- OP (R97). -/
def opReg : BitVec 7 := 0b0110011

/-- LUI (R97). -/
def opLui : BitVec 7 := 0b0110111

/-- BRANCH (R97). -/
def opBranch : BitVec 7 := 0b1100011

/-- JALR (R97). -/
def opJalr : BitVec 7 := 0b1100111

/-- JAL (R97). -/
def opJal : BitVec 7 := 0b1101111

/-- SYSTEM (R97). -/
def opSystem : BitVec 7 := 0b1110011

/-- The funct7 of every register and shift-immediate instruction but three (R98). -/
def funct7Base : BitVec 7 := 0b0000000

/-- The funct7 of SUB, SRA and SRAI (R98). -/
def funct7Alt : BitVec 7 := 0b0100000

/-- The word of an instruction, from the dispatch table R98 and the formats R83 to R88. -/
def encode : Instr → Word
  | .lui rd imm => encodeU imm rd opLui
  | .auipc rd imm => encodeU imm rd opAuipc
  | .jal rd off => encodeJ off rd opJal
  | .jalr rd rs1 imm => encodeI imm rs1 0b000 rd opJalr
  | .beq rs1 rs2 off => encodeB off rs2 rs1 0b000 opBranch
  | .bne rs1 rs2 off => encodeB off rs2 rs1 0b001 opBranch
  | .blt rs1 rs2 off => encodeB off rs2 rs1 0b100 opBranch
  | .bge rs1 rs2 off => encodeB off rs2 rs1 0b101 opBranch
  | .bltu rs1 rs2 off => encodeB off rs2 rs1 0b110 opBranch
  | .bgeu rs1 rs2 off => encodeB off rs2 rs1 0b111 opBranch
  | .lb rd rs1 imm => encodeI imm rs1 0b000 rd opLoad
  | .lh rd rs1 imm => encodeI imm rs1 0b001 rd opLoad
  | .lw rd rs1 imm => encodeI imm rs1 0b010 rd opLoad
  | .lbu rd rs1 imm => encodeI imm rs1 0b100 rd opLoad
  | .lhu rd rs1 imm => encodeI imm rs1 0b101 rd opLoad
  | .sb rs1 rs2 imm => encodeS imm rs2 rs1 0b000 opStore
  | .sh rs1 rs2 imm => encodeS imm rs2 rs1 0b001 opStore
  | .sw rs1 rs2 imm => encodeS imm rs2 rs1 0b010 opStore
  | .addi rd rs1 imm => encodeI imm rs1 0b000 rd opImm
  | .slti rd rs1 imm => encodeI imm rs1 0b010 rd opImm
  | .sltiu rd rs1 imm => encodeI imm rs1 0b011 rd opImm
  | .xori rd rs1 imm => encodeI imm rs1 0b100 rd opImm
  | .ori rd rs1 imm => encodeI imm rs1 0b110 rd opImm
  | .andi rd rs1 imm => encodeI imm rs1 0b111 rd opImm
  | .slli rd rs1 shamt => encodeR funct7Base shamt rs1 0b001 rd opImm
  | .srli rd rs1 shamt => encodeR funct7Base shamt rs1 0b101 rd opImm
  | .srai rd rs1 shamt => encodeR funct7Alt shamt rs1 0b101 rd opImm
  | .add rd rs1 rs2 => encodeR funct7Base rs2 rs1 0b000 rd opReg
  | .sub rd rs1 rs2 => encodeR funct7Alt rs2 rs1 0b000 rd opReg
  | .sll rd rs1 rs2 => encodeR funct7Base rs2 rs1 0b001 rd opReg
  | .slt rd rs1 rs2 => encodeR funct7Base rs2 rs1 0b010 rd opReg
  | .sltu rd rs1 rs2 => encodeR funct7Base rs2 rs1 0b011 rd opReg
  | .xor rd rs1 rs2 => encodeR funct7Base rs2 rs1 0b100 rd opReg
  | .srl rd rs1 rs2 => encodeR funct7Base rs2 rs1 0b101 rd opReg
  | .sra rd rs1 rs2 => encodeR funct7Alt rs2 rs1 0b101 rd opReg
  | .or rd rs1 rs2 => encodeR funct7Base rs2 rs1 0b110 rd opReg
  | .and rd rs1 rs2 => encodeR funct7Base rs2 rs1 0b111 rd opReg
  | .fence fm pred succ rs1 rd => encodeI (fm ++ pred ++ succ) rs1 0b000 rd opMiscMem
  | .fenceI imm rs1 rd => encodeI imm rs1 0b001 rd opMiscMem
  | .ecall => encodeI 0x000 0 0b000 0 opSystem
  | .ebreak => encodeI 0x001 0 0b000 0 opSystem
  | .mret => encodeI 0x302 0 0b000 0 opSystem
  | .sret => encodeI 0x102 0 0b000 0 opSystem
  | .wfi => encodeI 0x105 0 0b000 0 opSystem
  | .sfenceVma rs1 rs2 => encodeR 0b0001001 rs2 rs1 0b000 0 opSystem
  | .csrrw rd csr rs1 => encodeI csr rs1 0b001 rd opSystem
  | .csrrs rd csr rs1 => encodeI csr rs1 0b010 rd opSystem
  | .csrrc rd csr rs1 => encodeI csr rs1 0b011 rd opSystem
  | .csrrwi rd csr uimm => encodeI csr uimm 0b101 rd opSystem
  | .csrrsi rd csr uimm => encodeI csr uimm 0b110 rd opSystem
  | .csrrci rd csr uimm => encodeI csr uimm 0b111 rd opSystem

end Sys2Proof
end

