-- ==== Sys2Proof/Machine/LoadStore.lean ====
section
/-!
DEFINITION. The loads and stores (46_load_store.md). Any alignment is allowed (R59); an access with a byte outside the
window fails whole, as OutOfBounds, with no effect but the status (R283). The record's `word` is the instruction's own
word: `encode` gives it back, since a load or store keeps every bit of its word (R281).
-/
namespace Sys2Proof.Machine

/-- A load of `n` bytes by the instruction `i` (R230 to R235): `v <- MemRead(ea, n); x[rd] <- extend(v); pc <- pc + 4`.
A load to x0 still reads and can still fail (R239). -/
def loadWith (i : Instr) (n : Nat) (extend : Word → Word) (rd rs1 : Reg) (imm : BitVec 12) (s : State) : Result :=
  match memRead s (loadAddress rs1 imm s) n with
  | some v => writeAndAdvance rd (extend (BitVec.ofNat 32 v)) s
  | none => .next (raise (.outOfBounds .load (loadAddress rs1 imm s)) (some (encode i)) s)

/-- A store of the low `n` bytes of `x[rs2]` by the instruction `i` (R230, R236 to R238). -/
def storeWith (i : Instr) (n : Nat) (rs1 rs2 : Reg) (imm : BitVec 12) (s : State) : Result :=
  match memWrite s (storeAddress rs1 imm s) n (s.readReg rs2) with
  | some t => .next (t.setPc (nextPc s))
  | none => .next (raise (.outOfBounds .store (storeAddress rs1 imm s)) (some (encode i)) s)

/-- LB (R231). -/
def execLb (rd rs1 : Reg) (imm : BitVec 12) (s : State) : Result :=
  loadWith (.lb rd rs1 imm) 1 (sext 8) rd rs1 imm s

/-- LH (R232). -/
def execLh (rd rs1 : Reg) (imm : BitVec 12) (s : State) : Result :=
  loadWith (.lh rd rs1 imm) 2 (sext 16) rd rs1 imm s

/-- LW (R233). -/
def execLw (rd rs1 : Reg) (imm : BitVec 12) (s : State) : Result :=
  loadWith (.lw rd rs1 imm) 4 id rd rs1 imm s

/-- LBU (R234). -/
def execLbu (rd rs1 : Reg) (imm : BitVec 12) (s : State) : Result :=
  loadWith (.lbu rd rs1 imm) 1 (zext 8) rd rs1 imm s

/-- LHU (R235). -/
def execLhu (rd rs1 : Reg) (imm : BitVec 12) (s : State) : Result :=
  loadWith (.lhu rd rs1 imm) 2 (zext 16) rd rs1 imm s

/-- SB (R236). -/
def execSb (rs1 rs2 : Reg) (imm : BitVec 12) (s : State) : Result := storeWith (.sb rs1 rs2 imm) 1 rs1 rs2 imm s

/-- SH (R237). -/
def execSh (rs1 rs2 : Reg) (imm : BitVec 12) (s : State) : Result := storeWith (.sh rs1 rs2 imm) 2 rs1 rs2 imm s

/-- SW (R238). -/
def execSw (rs1 rs2 : Reg) (imm : BitVec 12) (s : State) : Result := storeWith (.sw rs1 rs2 imm) 4 rs1 rs2 imm s

end Sys2Proof.Machine
end

