-- ==== Sys2Proof/Machine/System.lean ====
section
/-!
DEFINITION. The system instructions (47_system.md). ECALL is the exit call; EBREAK and every other call end the run with
a fatal error. MRET, SRET, WFI, SFENCE.VMA and the six CSR instructions have no effect but `pc <- pc + 4`, need no
privilege (R295), and leave `rd` unchanged: there is no CSR, no trap to return from and nothing to wait for (R31, R258,
R291, R293).
-/
namespace Sys2Proof.Machine

/-- ECALL (R250 to R252): exit when a7 = 93, with success when a0 = 0 and else with the code in `x[FAIL_CODE_REG]`; any
other call is an UnsupportedEnvironmentCall. -/
def execEcall (s : State) : Result :=
  if s.readReg Config.exitNumReg = Config.exitNum then
    if s.readReg Config.statusReg = 0 then .next (halt .haltedSuccess s)
    else .next (halt (.haltedFailure (s.readReg s.cfg.failCodeReg)) s)
  else .next (raise .unsupportedEnvironmentCall (some (encode .ecall)) s)

/-- EBREAK (R253): a Breakpoint, always. -/
def execEbreak (s : State) : Result := .next (raise .breakpoint (some (encode .ebreak)) s)

/-- MRET (R254). -/
def execMret (s : State) : Result := advanceOnly s

/-- SRET (R255). -/
def execSret (s : State) : Result := advanceOnly s

/-- WFI (R256): it never waits. -/
def execWfi (s : State) : Result := advanceOnly s

/-- SFENCE.VMA (R257). -/
def execSfenceVma (s : State) : Result := advanceOnly s

/-- CSRRW (R258, R259). -/
def execCsrrw (s : State) : Result := advanceOnly s

/-- CSRRS (R258, R260). -/
def execCsrrs (s : State) : Result := advanceOnly s

/-- CSRRC (R258, R261). -/
def execCsrrc (s : State) : Result := advanceOnly s

/-- CSRRWI (R258, R262). -/
def execCsrrwi (s : State) : Result := advanceOnly s

/-- CSRRSI (R258, R263). -/
def execCsrrsi (s : State) : Result := advanceOnly s

/-- CSRRCI (R258, R264). -/
def execCsrrci (s : State) : Result := advanceOnly s

end Sys2Proof.Machine
end

