-- ==== Sys2Proof/Machine/Upper.lean ====
section
/-!
DEFINITION. The upper-immediate instructions (41_upper_immediate.md).
-/
namespace Sys2Proof.Machine

/-- LUI (R150): `x[rd] <- imm_U`. -/
def execLui (rd : Reg) (imm : BitVec 20) (s : State) : Result := writeAndAdvance rd (immU imm) s

/-- AUIPC (R151): `x[rd] <- pc + imm_U`, with `pc` the address of this instruction. -/
def execAuipc (rd : Reg) (imm : BitVec 20) (s : State) : Result := writeAndAdvance rd (s.pc + immU imm) s

end Sys2Proof.Machine
end

