-- ==== Sys2Proof/Machine/Step.lean ====
section
/-!
DEFINITION. One step (40_execution_cycle.md R120 to R128): fetch, decode, execute, advance. The phases run in order and
the first that fails decides the fatal error (R290).
-/
namespace Sys2Proof.Machine

/-- `Step(S)` (R122). A failed fetch and an unknown word are steps that raise (R282, R284). From a status that is not
`running` there is no step (R121), which the fault says. -/
def step (s : State) : Host.Outcome State Fault Refusal :=
  match s.status with
  | .running =>
    match fetchWord s with
    | none => .next (raise (.outOfBounds .fetch s.pc) none s)
    | some w =>
      match decode w with
      | none => .next (raise .unknownInstruction (some w) s)
      | some i => exec i s
  | .haltedSuccess => .fault .notRunning
  | .haltedFailure _ => .fault .notRunning
  | .fatal _ => .fault .notRunning

/-- Where `withFetchWord` places an instruction: at the program counter where a word fits there, else at the start of
the window. -/
def fetchSlot (s : State) : Word := if inBounds s.cfg s.pc 4 then s.pc else BitVec.ofNat 32 s.cfg.memBase

/-- The state whose next step fetches and runs the given word: what the host's `load_segment`, `set_entry` and `run`
do for a program of one word (R314), less the entry register, which no step reads (notes/assumptions/5.md). -/
def State.withFetchWord (s : State) (nbits w : Nat) : State :=
  { s with
    pc := fetchSlot s
    status := .running
    mem := s.mem.writeLE (fetchSlot s).toNat 4 (tableWord nbits w) }

end Sys2Proof.Machine
end

