-- ==== Sys2Proof/Machine/Record.lean ====
section
/-!
DEFINITION. The step record (10_state.md R36): what each step shows the host. It is an output, not state, so it stands
beside `step` as a function of the state the step starts from (R126).
-/
namespace Sys2Proof.Machine

/-- The access of a load or store (R36): its effective address, its width in bytes, and the bytes read or written as an
unsigned number, `none` for an access that failed. -/
structure AccessRecord where
  kind : AccessKind
  addr : Word
  width : Nat
  value : Option Nat
  deriving DecidableEq, Repr

/-- `E = (pc, word, access)` (R36); `word` is `none` when the fetch failed (R126). -/
structure StepRecord where
  pc : Word
  word : Option Word
  access : Option AccessRecord
  deriving DecidableEq, Repr

/-- The access of a load of `n` bytes (R36, R230, R239). -/
def loadRecord (n : Nat) (rs1 : Reg) (imm : BitVec 12) (s : State) : AccessRecord :=
  { kind := .load, addr := loadAddress rs1 imm s, width := n, value := memRead s (loadAddress rs1 imm s) n }

/-- The access of a store of `n` bytes (R36, R230). -/
def storeRecord (n : Nat) (rs1 rs2 : Reg) (imm : BitVec 12) (s : State) : AccessRecord :=
  { kind := .store, addr := storeAddress rs1 imm s, width := n
    value := (memWrite s (storeAddress rs1 imm s) n (s.readReg rs2)).map fun _ => (s.readReg rs2).toNat % 2 ^ (8 * n) }

/-- The data access of an instruction, if it makes one (R36). -/
def accessOf (i : Instr) (s : State) : Option AccessRecord :=
  match i with
  | .lb _ rs1 imm => some (loadRecord 1 rs1 imm s)
  | .lh _ rs1 imm => some (loadRecord 2 rs1 imm s)
  | .lw _ rs1 imm => some (loadRecord 4 rs1 imm s)
  | .lbu _ rs1 imm => some (loadRecord 1 rs1 imm s)
  | .lhu _ rs1 imm => some (loadRecord 2 rs1 imm s)
  | .sb rs1 rs2 imm => some (storeRecord 1 rs1 rs2 imm s)
  | .sh rs1 rs2 imm => some (storeRecord 2 rs1 rs2 imm s)
  | .sw rs1 rs2 imm => some (storeRecord 4 rs1 rs2 imm s)
  | .lui .. | .auipc .. | .jal .. | .jalr .. => none
  | .beq .. | .bne .. | .blt .. | .bge .. | .bltu .. | .bgeu .. => none
  | .addi .. | .slti .. | .sltiu .. | .xori .. | .ori .. | .andi .. | .slli .. | .srli .. | .srai .. => none
  | .add .. | .sub .. | .sll .. | .slt .. | .sltu .. | .xor .. | .srl .. | .sra .. | .or .. | .and .. => none
  | .fence .. | .fenceI .. | .ecall | .ebreak | .mret | .sret | .wfi | .sfenceVma .. => none
  | .csrrw .. | .csrrs .. | .csrrc .. | .csrrwi .. | .csrrsi .. | .csrrci .. => none

/-- The record of the step taken from a running state. -/
def runningRecord (s : State) : StepRecord :=
  match fetchWord s with
  | none => { pc := s.pc, word := none, access := none }
  | some w => { pc := s.pc, word := some w, access := (decode w).bind fun i => accessOf i s }

/-- The record of the next step: exactly one when a step is taken, none when the status is terminal (R121, R126). -/
def stepRecord (s : State) : Option StepRecord :=
  match s.status with
  | .running => some (runningRecord s)
  | .haltedSuccess => none
  | .haltedFailure _ => none
  | .fatal _ => none

end Sys2Proof.Machine
end

