-- ==== Sys2Proof/Machine/Driver.lean ====
section
/-!
DEFINITION. The host's operations on the core (40_execution_cycle.md R129 to R142; 70_reset_and_hazards.md R310 to
R314), each taken between steps. The stop flag is an input, not state (R129): `run` and `continueRun` take the list of
its samples, one for each time the loop reads it.
-/
namespace Sys2Proof.Machine

/-- A failed host operation: the bounds error of R63 and R141. It is not a run outcome (R301). -/
inductive HostError where
  | bounds
  deriving DecidableEq, Repr

/-- `reset()` (R310): every piece of state at its reset value, whatever it was before. It cannot fail. -/
def hostReset (s : State) : State := State.resetWith s.cfg

/-- Bytes written from address `a` on, in order (R63). -/
def Memory.writeBytes (m : Memory) (a : Nat) : List Byte → Memory
  | [] => m
  | b :: bs => Memory.writeBytes (m.write a b) (a + 1) bs

/-- `load_segment(addr, bytes)`, the segment write of R63 and R136: nothing is written when it fails. -/
def loadSegment (addr : Word) (payload : List Byte) (s : State) : Except HostError State :=
  if inBounds s.cfg addr payload.length then .ok (s.setMem (s.mem.writeBytes addr.toNat payload)) else .error .bounds

/-- `set_entry(addr)` (R137): every value is accepted. -/
def setEntry (addr : Word) (s : State) : State := s.setEntry addr

/-- `read(index)` for an index 0 to 32, where 32 is the program counter (R138). -/
def readIndex (s : State) (i : Fin 33) : Word := if i.val = 32 then s.pc else s.readReg (BitVec.ofNat 5 i.val)

/-- `write(index, value)` for an index 0 to 32: the value is masked to 32 bits, and index 0 discards it (R23, R138). -/
def writeIndex (s : State) (i : Fin 33) (v : Nat) : State :=
  if i.val = 32 then s.setPc (BitVec.ofNat 32 v) else s.writeReg (BitVec.ofNat 5 i.val) (BitVec.ofNat 32 v)

/-- `program_counter()` (R138). -/
def programCounter (s : State) : Word := s.pc

/-- `set_program_counter(value)` (R138). -/
def setProgramCounter (v : Nat) (s : State) : State := s.setPc (BitVec.ofNat 32 v)

/-- The `n` bytes from address `a` on. -/
def Memory.readBytes (m : Memory) (a : Nat) : Nat → List Byte
  | 0 => []
  | n + 1 => m.read a :: Memory.readBytes m (a + 1) n

/-- `read_memory(addr, n)` (R141): it changes no state. -/
def readMemory (s : State) (addr : Word) (n : Nat) : Except HostError (List Byte) :=
  if inBounds s.cfg addr n then .ok (s.mem.readBytes addr.toNat n) else .error .bounds

/-- What `step()` returns (R139). -/
inductive StepReply where
  /-- The record of the step that was taken. -/
  | record (r : StepRecord)
  /-- No step was taken: the status. -/
  | status (st : Status)
  deriving DecidableEq, Repr

/-- The state after a step where one is taken, else the same state. -/
def afterStep (s : State) : State :=
  match step s with
  | .next t => t
  | .fault _ => s
  | .refused _ => s

/-- `step()` (R139): one step when the status is running; otherwise it does nothing and returns the status. -/
def hostStep (s : State) : State × StepReply :=
  match stepRecord s with
  | some r => (afterStep s, .record r)
  | none => (s, .status s.status)

/-- The result of `run()` and `continue_run()` (R132). `Fatal-Error` carries the whole record. -/
inductive RunResult where
  | haltedSuccess
  | haltedFailure (code : Word)
  | fatalError (info : FatalInfo)
  | stopped
  deriving DecidableEq, Repr

/-- The result that a terminal status stands for; `none` while running (R132). -/
def resultOf : Status → Option RunResult
  | .running => none
  | .haltedSuccess => some .haltedSuccess
  | .haltedFailure code => some (.haltedFailure code)
  | .fatal info => some (.fatalError info)

/-- `continue_run()` (R130): before each step, first the status and then the stop flag. The list holds the flag's
samples in order; the result is `none` when the samples end before the loop does, since the core bounds no run (R131). -/
def continueRun : List Bool → State → Option RunResult × State
  | [], s => (resultOf s.status, s)
  | stop :: rest, s =>
    match resultOf s.status with
    | some r => (some r, s)
    | none => if stop then (some .stopped, s) else continueRun rest (afterStep s)

/-- `run()` (R130): from a running status it copies `entry` into `pc`; from a terminal one it returns it (R289). -/
def run (stops : List Bool) (s : State) : Option RunResult × State :=
  match resultOf s.status with
  | some r => (some r, s)
  | none => continueRun stops (s.setPc s.entry)

end Sys2Proof.Machine
end

