-- ==== Sys2Proof/Safety.lean ====
section
/-!
DEFINITION. The terms the statements use: the parameters the spec allows (00_scope.md R11 to R13), the invariant of a
state, what a step may change, and what a run without an error is (60_exceptions.md R281, R288).
-/
namespace Sys2Proof.Machine

/-- The `n` bytes from address `a` on all lie in the window `[MEM_BASE, MEM_BASE + MEM_SIZE)` (R50, R52). -/
abbrev InWindow (c : Config) (a n : Nat) : Prop := c.memBase ≤ a ∧ a + n ≤ c.memBase + c.memSize

/-- The parameters the spec allows: `MEM_SIZE >= 4`, a window that does not wrap (R11), and a `MEM_INIT` in canonical
form, over offsets of the window (R13). -/
abbrev validConfig (c : Config) : Prop :=
  4 ≤ c.memSize ∧ c.memBase + c.memSize ≤ 2 ^ 32 ∧ Memory.wf c.memInit ∧ ∀ cell ∈ c.memInit, cell.1 < c.memSize

/-- The invariant: allowed parameters, memory in canonical form, and no byte held outside the window (R20, R51). -/
abbrev State.Inv (s : State) : Prop :=
  validConfig s.cfg ∧ Memory.wf s.mem ∧ ∀ cell ∈ s.mem, InWindow s.cfg cell.1 1

/-- The state reports no fatal error (R33, R281). -/
abbrev State.Safe (s : State) : Prop := ∀ info, s.status ≠ .fatal info

/-- A step is safe: it ends in a state that reports no fatal error. -/
def SafeStep (s : State) : Prop := ∃ t, step s = .next t ∧ t.Safe

/-- `t` is `s` with `x[rd] <- v` and `pc <- target`, and nothing else changed. A write to x0 is discarded (R22). -/
structure WritesReg (s t : State) (rd : Reg) (v target : Word) : Prop where
  dest : rd ≠ 0 → t.readReg rd = v
  zero : t.readReg 0 = 0
  regs : ∀ r, r ≠ rd → t.readReg r = s.readReg r
  pc : t.pc = target
  mem : ∀ a, t.mem.read a = s.mem.read a
  status : t.status = s.status
  entry : t.entry = s.entry
  cfg : t.cfg = s.cfg

/-- `t` is `s` with `pc <- target`, and nothing else changed. -/
structure SetsPc (s t : State) (target : Word) : Prop where
  regs : ∀ r, t.readReg r = s.readReg r
  pc : t.pc = target
  mem : ∀ a, t.mem.read a = s.mem.read a
  status : t.status = s.status
  entry : t.entry = s.entry
  cfg : t.cfg = s.cfg

/-- `t` is `s` with `status <- st`, and nothing else changed: the end of a run (R122, R250, R288). -/
structure SetsStatus (s t : State) (st : Status) : Prop where
  regs : ∀ r, t.readReg r = s.readReg r
  pc : t.pc = s.pc
  mem : ∀ a, t.mem.read a = s.mem.read a
  status : t.status = st
  entry : t.entry = s.entry
  cfg : t.cfg = s.cfg

/-- `t` is `s` with the low `n` bytes of `v` at address `a`, least significant first, and `pc <- pc + 4`; every other
byte and every register is unchanged (R56, R236 to R238). -/
structure Stores (s t : State) (a n : Nat) (v : Word) : Prop where
  stored : ∀ i, i < n → t.mem.read (a + i) = v.extractLsb' (8 * i) 8
  others : ∀ b, b < a ∨ a + n ≤ b → t.mem.read b = s.mem.read b
  regs : ∀ r, t.readReg r = s.readReg r
  pc : t.pc = s.pc + 4
  status : t.status = s.status
  entry : t.entry = s.entry
  cfg : t.cfg = s.cfg

/-- The record of an access out of bounds by the instruction word `w` of the step at `pc` (R34, R283). -/
def outOfBoundsStatus (access : AccessKind) (addr pc : Word) (w : Option Word) : Status :=
  .fatal { kind := .outOfBounds access addr, pc := pc, word := w }

/-- Every word the mask and match of a table row admit decodes to the instruction `f` gives it. -/
def RowDecodes (mask pattern : Word) (f : Word → Instr) : Prop := ∀ w, w &&& mask = pattern → decode w = some (f w)

/-- If the program counter of a running state is outside the window, the next step raises OutOfBounds there (R282). -/
def NextFetchChecked (t : State) : Prop :=
  t.status = .running → ¬ InWindow t.cfg t.pc.toNat 4 →
    ∃ u, step t = .next u ∧ SetsStatus t u (outOfBoundsStatus .fetch t.pc t.pc none)

/-- The register an instruction's format names as destination, where its rule writes one (R25, R30). The fields `rd` of
FENCE, FENCE.I and the CSR instructions are ignored and not written (R100, R258). -/
def destOf : Instr → Option Reg
  | .lui rd _ | .auipc rd _ | .jal rd _ | .jalr rd _ _ => some rd
  | .lb rd _ _ | .lh rd _ _ | .lw rd _ _ | .lbu rd _ _ | .lhu rd _ _ => some rd
  | .addi rd _ _ | .slti rd _ _ | .sltiu rd _ _ | .xori rd _ _ | .ori rd _ _ | .andi rd _ _ => some rd
  | .slli rd _ _ | .srli rd _ _ | .srai rd _ _ => some rd
  | .add rd _ _ | .sub rd _ _ | .sll rd _ _ | .slt rd _ _ | .sltu rd _ _ | .xor rd _ _ => some rd
  | .srl rd _ _ | .sra rd _ _ | .or rd _ _ | .and rd _ _ => some rd
  | .beq .. | .bne .. | .blt .. | .bge .. | .bltu .. | .bgeu .. | .sb .. | .sh .. | .sw .. => none
  | .fence .. | .fenceI .. | .ecall | .ebreak | .mret | .sret | .wfi | .sfenceVma .. => none
  | .csrrw .. | .csrrs .. | .csrrc .. | .csrrwi .. | .csrrsi .. | .csrrci .. => none

/-- The address and width of the store an instruction makes from a state, if it is a store (R230, R236 to R238). -/
def storeOf : Instr → State → Option (Word × Nat)
  | .sb rs1 _ imm, s => some (storeAddress rs1 imm s, 1)
  | .sh rs1 _ imm, s => some (storeAddress rs1 imm s, 2)
  | .sw rs1 _ imm, s => some (storeAddress rs1 imm s, 4)
  | .lui .., _ | .auipc .., _ | .jal .., _ | .jalr .., _ => none
  | .beq .., _ | .bne .., _ | .blt .., _ | .bge .., _ | .bltu .., _ | .bgeu .., _ => none
  | .lb .., _ | .lh .., _ | .lw .., _ | .lbu .., _ | .lhu .., _ => none
  | .addi .., _ | .slti .., _ | .sltiu .., _ | .xori .., _ | .ori .., _ | .andi .., _ => none
  | .slli .., _ | .srli .., _ | .srai .., _ => none
  | .add .., _ | .sub .., _ | .sll .., _ | .slt .., _ | .sltu .., _ | .xor .., _ => none
  | .srl .., _ | .sra .., _ | .or .., _ | .and .., _ => none
  | .fence .., _ | .fenceI .., _ | .ecall, _ | .ebreak, _ | .mret, _ | .sret, _ | .wfi, _ | .sfenceVma .., _ => none
  | .csrrw .., _ | .csrrs .., _ | .csrrc .., _ | .csrrwi .., _ | .csrrsi .., _ | .csrrci .., _ => none

/-- The load an instruction makes from a state, if it is one: its address and width (R230 to R235). -/
def loadOf : Instr → State → Option (Word × Nat)
  | .lb _ rs1 imm, s => some (loadAddress rs1 imm s, 1)
  | .lh _ rs1 imm, s => some (loadAddress rs1 imm s, 2)
  | .lw _ rs1 imm, s => some (loadAddress rs1 imm s, 4)
  | .lbu _ rs1 imm, s => some (loadAddress rs1 imm s, 1)
  | .lhu _ rs1 imm, s => some (loadAddress rs1 imm s, 2)
  | .lui .., _ | .auipc .., _ | .jal .., _ | .jalr .., _ => none
  | .beq .., _ | .bne .., _ | .blt .., _ | .bge .., _ | .bltu .., _ | .bgeu .., _ => none
  | .sb .., _ | .sh .., _ | .sw .., _ => none
  | .addi .., _ | .slti .., _ | .sltiu .., _ | .xori .., _ | .ori .., _ | .andi .., _ => none
  | .slli .., _ | .srli .., _ | .srai .., _ => none
  | .add .., _ | .sub .., _ | .sll .., _ | .slt .., _ | .sltu .., _ | .xor .., _ => none
  | .srl .., _ | .sra .., _ | .or .., _ | .and .., _ => none
  | .fence .., _ | .fenceI .., _ | .ecall, _ | .ebreak, _ | .mret, _ | .sret, _ | .wfi, _ | .sfenceVma .., _ => none
  | .csrrw .., _ | .csrrs .., _ | .csrrc .., _ | .csrrwi .., _ | .csrrsi .., _ | .csrrci .., _ => none

/-- The instructions that replace the program counter by a target of their own: JAL, JALR and the branches (R124). -/
def isControl : Instr → Bool
  | .jal .. | .jalr .. | .beq .. | .bne .. | .blt .. | .bge .. | .bltu .. | .bgeu .. => true
  | .lui .. | .auipc .. => false
  | .lb .. | .lh .. | .lw .. | .lbu .. | .lhu .. | .sb .. | .sh .. | .sw .. => false
  | .addi .. | .slti .. | .sltiu .. | .xori .. | .ori .. | .andi .. | .slli .. | .srli .. | .srai .. => false
  | .add .. | .sub .. | .sll .. | .slt .. | .sltu .. | .xor .. | .srl .. | .sra .. | .or .. | .and .. => false
  | .fence .. | .fenceI .. | .ecall | .ebreak | .mret | .sret | .wfi | .sfenceVma .. => false
  | .csrrw .. | .csrrs .. | .csrrc .. | .csrrwi .. | .csrrsi .. | .csrrci .. => false

/-- The instruction puts a target of its own into `pc`: JAL and JALR always, a branch when its condition holds (R124). -/
def ReplacesPc : Instr → State → Prop
  | .jal .., _ | .jalr .., _ => True
  | .beq rs1 rs2 _, s => s.readReg rs1 = s.readReg rs2
  | .bne rs1 rs2 _, s => s.readReg rs1 ≠ s.readReg rs2
  | .blt rs1 rs2 _, s => (s.readReg rs1).toInt < (s.readReg rs2).toInt
  | .bge rs1 rs2 _, s => (s.readReg rs2).toInt ≤ (s.readReg rs1).toInt
  | .bltu rs1 rs2 _, s => (s.readReg rs1).toNat < (s.readReg rs2).toNat
  | .bgeu rs1 rs2 _, s => (s.readReg rs2).toNat ≤ (s.readReg rs1).toNat
  | .lui .., _ | .auipc .., _ => False
  | .lb .., _ | .lh .., _ | .lw .., _ | .lbu .., _ | .lhu .., _ | .sb .., _ | .sh .., _ | .sw .., _ => False
  | .addi .., _ | .slti .., _ | .sltiu .., _ | .xori .., _ | .ori .., _ | .andi .., _ => False
  | .slli .., _ | .srli .., _ | .srai .., _ => False
  | .add .., _ | .sub .., _ | .sll .., _ | .slt .., _ | .sltu .., _ | .xor .., _ => False
  | .srl .., _ | .sra .., _ | .or .., _ | .and .., _ => False
  | .fence .., _ | .fenceI .., _ | .ecall, _ | .ebreak, _ | .mret, _ | .sret, _ | .wfi, _ | .sfenceVma .., _ => False
  | .csrrw .., _ | .csrrs .., _ | .csrrc .., _ | .csrrwi .., _ | .csrrsi .., _ | .csrrci .., _ => False

/-- The value of `x[rs1]` plus a signed 12-bit offset, modulo 2^32 (R230). -/
def basePlus (s : State) (rs1 : Reg) (imm : BitVec 12) : Word := BitVec.ofInt 32 ((s.readReg rs1).toInt + imm.toInt)

/-- A load `i` of `n` bytes at `ea`: with all of them in the window it puts `v` in `rd` and continues; otherwise it
raises OutOfBounds(Load, ea) (R231 to R235, R283). -/
def LoadsOrFails (i : Instr) (s : State) (ea : Word) (n : Nat) (rd : Reg) (v : Word) : Prop :=
  (InWindow s.cfg ea.toNat n → ∃ t, exec i s = .next t ∧ WritesReg s t rd v (s.pc + 4)) ∧
  (¬ InWindow s.cfg ea.toNat n →
    ∃ t, exec i s = .next t ∧ SetsStatus s t (outOfBoundsStatus .load ea s.pc (some (encode i))))

/-- A store `i` of the low `n` bytes of `v` at `ea`: with all of them in the window it stores them and continues;
otherwise it raises OutOfBounds(Store, ea) and writes no byte (R236 to R238, R283). -/
def StoresOrFails (i : Instr) (s : State) (ea : Word) (n : Nat) (v : Word) : Prop :=
  (InWindow s.cfg ea.toNat n → ∃ t, exec i s = .next t ∧ Stores s t ea.toNat n v) ∧
  (¬ InWindow s.cfg ea.toNat n →
    ∃ t, exec i s = .next t ∧ SetsStatus s t (outOfBoundsStatus .store ea s.pc (some (encode i))))

/-- A branch `i` with byte offset `off`: it goes to `pc + off` if `cond` holds and to `pc + 4` if not, and changes
nothing else (R210 to R216). -/
def BranchesIf (i : Instr) (s : State) (off : BitVec 13) (cond : Prop) : Prop :=
  ∃ t, exec i s = .next t ∧ NextFetchChecked t ∧
    (cond → SetsPc s t (BitVec.ofInt 32 (s.pc.toNat + off.toInt))) ∧ (¬ cond → SetsPc s t (s.pc + 4))

/-- An instruction with no effect but `pc <- pc + 4` (R254 to R264, R270, R271). -/
def OnlyAdvances (i : Instr) : Prop := ∀ s, ∃ t, exec i s = .next t ∧ SetsPc s t (s.pc + 4)

/-- An instruction that writes `v s` to `rd`, continues at `pc + 4` and changes nothing else. -/
def Computes (i : Instr) (rd : Reg) (v : State → Word) : Prop :=
  ∀ s, ∃ t, exec i s = .next t ∧ WritesReg s t rd (v s) (s.pc + 4)

/-- The (mask, match) pairs of spec/opcode_table.json, in its order. -/
def opcodeTableRows : List (Word × Word) := [
  (0x0000007F, 0x00000037), (0x0000007F, 0x00000017), (0x0000007F, 0x0000006F),
  (0x0000707F, 0x00000067), (0x0000707F, 0x00000063), (0x0000707F, 0x00001063),
  (0x0000707F, 0x00004063), (0x0000707F, 0x00005063), (0x0000707F, 0x00006063),
  (0x0000707F, 0x00007063), (0x0000707F, 0x00000003), (0x0000707F, 0x00001003),
  (0x0000707F, 0x00002003), (0x0000707F, 0x00004003), (0x0000707F, 0x00005003),
  (0x0000707F, 0x00000023), (0x0000707F, 0x00001023), (0x0000707F, 0x00002023)] ++ [
  (0x0000707F, 0x00000013), (0x0000707F, 0x00002013), (0x0000707F, 0x00003013),
  (0x0000707F, 0x00004013), (0x0000707F, 0x00006013), (0x0000707F, 0x00007013),
  (0xFE00707F, 0x00001013), (0xFE00707F, 0x00005013), (0xFE00707F, 0x40005013),
  (0xFE00707F, 0x00000033), (0xFE00707F, 0x40000033), (0xFE00707F, 0x00001033),
  (0xFE00707F, 0x00002033), (0xFE00707F, 0x00003033), (0xFE00707F, 0x00004033),
  (0xFE00707F, 0x00005033), (0xFE00707F, 0x40005033), (0xFE00707F, 0x00006033)] ++ [
  (0xFE00707F, 0x00007033), (0x0000707F, 0x0000000F), (0x0000707F, 0x0000100F),
  (0xFFFFFFFF, 0x00000073), (0xFFFFFFFF, 0x00100073), (0xFFFFFFFF, 0x30200073),
  (0xFFFFFFFF, 0x10200073), (0xFFFFFFFF, 0x10500073), (0xFE007FFF, 0x12000073),
  (0x0000707F, 0x00001073), (0x0000707F, 0x00002073), (0x0000707F, 0x00003073),
  (0x0000707F, 0x00005073), (0x0000707F, 0x00006073), (0x0000707F, 0x00007073)]

end Sys2Proof.Machine
end

