-- ==== Sys2Proof/Certificates/Slice0/Obligations.lean ====
section
/-!
DEFINITION. The statements for the provers, one `def Obligations.<Name> : Prop` each. A docstring names the rules of
spec/ a statement formalises. Values are said by integer arithmetic on registers and immediates and by single bytes of
memory, not by the functions the meanings are written with; what a step changes and leaves alone is said by the
structures of Safety.lean (WritesReg, SetsPc, SetsStatus, Stores).
-/
open Sys2Proof Sys2Proof.Machine

/-! ### Encoding -/

/-- R98, R104 (and R80 for the bytes): decoding the word of a well-formed instruction gives it back, every operand at
every value its field admits; so does decoding the word's four bytes, whatever follows them. That the ignored fields of
R100 are kept as operands is the model's choice (log 2). -/
def Obligations.EncodeThenDecodeGivesTheInstructionBack : Prop :=
  ∀ (i : Instr) (rest : List Byte), i.wf = true →
    decode (encode i) = some i ∧ decodeBytes (bytesOfWord (encode i) ++ rest) = .ok (i, rest)

/-- R98, R104: the instruction a word decodes to is well-formed and encodes to that word, so no bit of a word is dropped,
and two words never share an instruction. The ignored fields of R100 are operands by the model's choice (log 2). -/
def Obligations.DecodeThenEncodeGivesTheWordBack : Prop :=
  ∀ (w : Word) (i : Instr), decode w = some i → i.wf = true ∧ encode i = w

/-- The note under R98: no two rows of spec/opcode_table.json match the same word ("No two rows match the same word", which the
spec marks as derived). Every row's words decode, to one instruction. -/
def Obligations.OpcodeRowsDoNotOverlap : Prop :=
  (∀ w : Word, ∀ p ∈ opcodeTableRows, ∀ q ∈ opcodeTableRows, w &&& p.1 = p.2 → w &&& q.1 = q.2 → p = q) ∧
  opcodeTableRows.Nodup ∧ opcodeTableRows.length = 51 ∧
  ∀ w : Word, ∀ p ∈ opcodeTableRows, w &&& p.1 = p.2 → ∃ i, decode w = some i

/-- R284: when the fetched word matches no row of spec/opcode_table.json the step raises UnknownInstruction with the step's pc
and the word, and nothing but the status changes; the unknown words are exactly those outside the table, among them
0x00000000 and 0xFFFFFFFF. -/
def Obligations.UnknownWordsEndTheRun : Prop :=
  (∀ (s : State) (w : Word), s.status = .running → fetchWord s = some w → (∀ p ∈ opcodeTableRows, w &&& p.1 ≠ p.2) →
    ∃ t, step s = .next t ∧ SetsStatus s t (.fatal { kind := .unknownInstruction, pc := s.pc, word := some w })) ∧
  (∀ w : Word, decode w = none ↔ ∀ p ∈ opcodeTableRows, w &&& p.1 ≠ p.2) ∧
  decode 0x00000000 = none ∧ decode 0xFFFFFFFF = none

/-- The kinds of unknown words that R99 lists (items 1 to 7, which the spec derives from its table R98) and R240, R265 and
R272 name. STORE funct3 011 stands in no row of R98 either, though item 3 and R240 name only 100 to 111 (log 9). -/
def Obligations.ReservedEncodingsAreUnknown : Prop :=
  (∀ w : Word, w.extractLsb 1 0 ≠ 0b11#2 → decode w = none) ∧
  (∀ w : Word, w.extractLsb 6 0 ∉ [0x03#7, 0x0F#7, 0x13#7, 0x17#7, 0x23#7, 0x33#7, 0x37#7, 0x63#7, 0x67#7, 0x6F#7, 0x73#7] →
    decode w = none) ∧
  (∀ w : Word, w.extractLsb 6 0 = 0x67#7 → w.extractLsb 14 12 ≠ 0#3 → decode w = none) ∧
  (∀ w : Word, w.extractLsb 6 0 = 0x63#7 → w.extractLsb 14 12 ∈ [2#3, 3#3] → decode w = none) ∧
  (∀ w : Word, w.extractLsb 6 0 = 0x03#7 → w.extractLsb 14 12 ∈ [3#3, 6#3, 7#3] → decode w = none) ∧
  (∀ w : Word, w.extractLsb 6 0 = 0x23#7 → w.extractLsb 14 12 ∈ [3#3, 4#3, 5#3, 6#3, 7#3] → decode w = none) ∧
  (∀ w : Word, w.extractLsb 6 0 = 0x13#7 → w.extractLsb 14 12 = 1#3 → w.extractLsb 31 25 ≠ 0#7 → decode w = none) ∧
  (∀ w : Word, w.extractLsb 6 0 = 0x13#7 → w.extractLsb 14 12 = 5#3 → w.extractLsb 31 25 ∉ [0#7, 0x20#7] →
    decode w = none) ∧
  (∀ w : Word, w.extractLsb 6 0 = 0x33#7 → w.extractLsb 31 25 ∉ [0#7, 0x20#7] → decode w = none) ∧
  (∀ w : Word, w.extractLsb 6 0 = 0x33#7 → w.extractLsb 31 25 = 0x20#7 → w.extractLsb 14 12 ∉ [0#3, 5#3] →
    decode w = none) ∧
  (∀ w : Word, w.extractLsb 6 0 = 0x73#7 → w.extractLsb 14 12 = 4#3 → decode w = none) ∧
  (∀ w : Word, w.extractLsb 6 0 = 0x73#7 → w.extractLsb 14 12 = 0#3 →
    w ∉ [0x00000073#32, 0x00100073#32, 0x10200073#32, 0x30200073#32, 0x10500073#32] →
    ¬ (w.extractLsb 31 25 = 9#7 ∧ w.extractLsb 11 7 = 0#5) → decode w = none) ∧
  (∀ w : Word, w.extractLsb 6 0 = 0x0F#7 → w.extractLsb 14 12 ∉ [0#3, 1#3] → decode w = none)

/-- R100: two words that agree in opcode and funct3 and are FENCE, FENCE.I or CSR instructions, or are both SFENCE.VMA,
are decoded by the same row and do the same in every state, whatever their other fields. -/
def Obligations.IgnoredFieldsDoNotMatter : Prop :=
  (∀ w w' : Word, w &&& 0x707F = w' &&& 0x707F →
    w &&& 0x707F ∈ [0x0000000F#32, 0x0000100F#32, 0x00001073#32, 0x00002073#32, 0x00003073#32, 0x00005073#32,
      0x00006073#32, 0x00007073#32] →
    ∃ r ∈ decodeTable, decode w = some (r.build w) ∧ decode w' = some (r.build w') ∧
      ∀ s, exec (r.build w) s = exec (r.build w') s) ∧
  (∀ w w' : Word, w &&& 0xFE007FFF = 0x12000073 → w' &&& 0xFE007FFF = 0x12000073 →
    ∃ r ∈ decodeTable, decode w = some (r.build w) ∧ decode w' = some (r.build w') ∧
      ∀ s, exec (r.build w) s = exec (r.build w') s)

/-- Words written out in the spec, one or two of each family: 41_upper_immediate.md to 48_misc_mem.md give each beside its
instruction (a sanity statement on fixed words). -/
def Obligations.WordsOfTheSpecDecode : Prop :=
  decode 0x123452B7 = some (.lui 5 0x12345) ∧ decode 0x00001317 = some (.auipc 6 1) ∧
  decode 0x010000EF = some (.jal 1 16) ∧ decode 0xFFDFF0EF = some (.jal 1 (-4)) ∧
  decode 0x003280E7 = some (.jalr 1 5 3) ∧ decode 0x00628463 = some (.beq 5 6 8) ∧
  decode 0x80000063 = some (.beq 0 0 (-4096)) ∧ decode 0x7E000FE3 = some (.beq 0 0 4094) ∧
  decode 0x0062F463 = some (.bgeu 5 6 8) ∧ decode 0x00334283 = some (.lbu 5 6 3) ∧
  decode 0xFE532E23 = some (.sw 6 5 (-4)) ∧ decode 0xFFF34293 = some (.xori 5 6 (-1)) ∧
  decode 0x40435293 = some (.srai 5 6 4) ∧ decode 0x407302B3 = some (.sub 5 6 7) ∧
  decode 0x8330000F = some (.fence 8 3 3 0 0) ∧ decode 0x0000100F = some (.fenceI 0 0 0) ∧
  decode 0x00000073 = some .ecall ∧ decode 0x30200073 = some .mret ∧
  decode 0x12628073 = some (.sfenceVma 5 6) ∧ decode 0x300312F3 = some (.csrrw 5 0x300 6) ∧
  decode 0x3000F2F3 = some (.csrrci 5 0x300 1)

/-- R17: for every width 1 to 32, sext_N(v) read as a signed number is the low N bits less 2^N when bit N-1 is set and the
low N bits otherwise, and zext_N(v) is the low N bits. -/
def Obligations.SignExtensionIsTwosComplement : Prop :=
  ∀ (n : Nat) (v : Word), 1 ≤ n → n ≤ 32 →
    (sext n v).toInt = (if v.toNat.testBit (n - 1) then ((v.toNat % 2 ^ n : Nat) : Int) - 2 ^ n else (v.toNat % 2 ^ n : Nat)) ∧
    (zext n v).toNat = v.toNat % 2 ^ n

/-- R90 to R94: each bit of each assembled immediate is the bit of the word its format names, sign bits copied upwards, and
each immediate is in the range the rule gives. -/
def Obligations.ImmediatesAreAssembledBitByBit : Prop :=
  ∀ w : Word,
    ((∀ j, j < 32 → (immI (immIField w)).getLsbD j = w.getLsbD (if j < 11 then 20 + j else 31)) ∧
      -2048 ≤ (immI (immIField w)).toInt ∧ (immI (immIField w)).toInt ≤ 2047) ∧
    ((∀ j, j < 32 → (immS (immSField w)).getLsbD j =
        w.getLsbD (if j < 5 then 7 + j else if j < 11 then 20 + j else 31)) ∧
      -2048 ≤ (immS (immSField w)).toInt ∧ (immS (immSField w)).toInt ≤ 2047) ∧
    ((∀ j, j < 32 → (immB (immBField w)).getLsbD j =
        (if j = 0 then false else w.getLsbD (if j < 5 then 7 + j else if j < 11 then 20 + j else if j = 11 then 7 else 31))) ∧
      -4096 ≤ (immB (immBField w)).toInt ∧ (immB (immBField w)).toInt ≤ 4094) ∧
    ((∀ j, j < 32 → (immU (immUField w)).getLsbD j = (decide (12 ≤ j) && w.getLsbD j)) ∧
      (immU (immUField w)).toNat % 4096 = 0 ∧ ((immU (immUField w)).toInt < 0 ↔ w.getLsbD 31 = true)) ∧
    ((∀ j, j < 32 → (immJ (immJField w)).getLsbD j =
        (if j = 0 then false else w.getLsbD (if j < 11 then 20 + j else if j = 11 then 20 else if j < 20 then j else 31))) ∧
      -1048576 ≤ (immJ (immJField w)).toInt ∧ (immJ (immJField w)).toInt ≤ 1048574)

/-! ### Registers, memory and reset -/

/-- R39, R40, R310: after reset every register reads 0, pc and entry are 0, the status is Running and the byte at each
window offset is MEM_INIT of it, whatever the state was before; the result depends on the parameters alone; and a newly
created instance with the default parameters is in that state (R313). -/
def Obligations.ResetSetsEveryPieceOfState : Prop :=
  (∀ s : State, (∀ r, (hostReset s).readReg r = 0) ∧ (hostReset s).pc = 0 ∧ (hostReset s).status = .running ∧
    (hostReset s).entry = 0 ∧ (hostReset s).cfg = s.cfg ∧
    ∀ off, off < s.cfg.memSize →
      (hostReset s).mem.read (s.cfg.memBase + off) = Memory.read s.cfg.memInit off) ∧
  (∀ s s' : State, s.cfg = s'.cfg → hostReset s = hostReset s') ∧
  ∀ s : State, s.cfg = Config.standard → hostReset s = State.reset

/-- The reset state of every allowed parameter choice meets the invariant of Safety.lean, and the source's own parameters
are allowed (R11, R13, R310). -/
def Obligations.ResetStateMeetsTheInvariant : Prop :=
  (∀ c : Config, validConfig c → (State.resetWith c).Inv) ∧ State.reset.Inv

/-- The invariant (allowed parameters, R11; memory in canonical form; no byte held outside the window, R20, R51) is kept by
every step from every state that meets it. -/
def Obligations.EveryStepKeepsTheInvariant : Prop :=
  ∀ s t : State, s.Inv → step s = .next t → t.Inv

/-- Every host operation that can change the state keeps the invariant: reset, set_entry, load_segment where it succeeds, the
register writes, set_program_counter, step(), and a run of any length (R130, R135 to R139). The others (read,
program_counter, read_memory) return no state. The list of stop-flag samples is the model's form of the input (log 6) and
the invariant is the model's own (log 11). -/
def Obligations.HostOperationsKeepTheInvariant : Prop :=
  ∀ s : State, s.Inv →
    (hostReset s).Inv ∧ (∀ a, (setEntry a s).Inv) ∧
    (∀ a bs t, loadSegment a bs s = .ok t → t.Inv) ∧ (∀ i v, (writeIndex s i v).Inv) ∧
    (∀ v, (setProgramCounter v s).Inv) ∧ (hostStep s).1.Inv ∧
    (∀ stops, (continueRun stops s).2.Inv ∧ (run stops s).2.Inv)

/-- R138, R22, R23: index 0 reads 0 and discards writes, 1 to 31 are the general registers, 32 is the program counter; a
written value is taken modulo 2^32; a write changes nothing else. -/
def Obligations.RegisterAccessorsReadBackWhatIsWritten : Prop :=
  (∀ (s : State) (i j : Fin 33) (v : Nat),
    readIndex (writeIndex s i v) j = if j = i ∧ i ≠ 0 then BitVec.ofNat 32 (v % 2 ^ 32) else readIndex s j) ∧
  (∀ (s : State) (i : Fin 33) (v : Nat), (∀ a, (writeIndex s i v).mem.read a = s.mem.read a) ∧
    (writeIndex s i v).status = s.status ∧ (writeIndex s i v).entry = s.entry ∧ (writeIndex s i v).cfg = s.cfg) ∧
  (∀ (s : State) (r : Reg) (i : Fin 33), i.val = r.toNat → readIndex s i = s.readReg r) ∧
  (∀ s : State, readIndex s 0 = 0 ∧ readIndex s 32 = programCounter s) ∧
  (∀ (s : State) (v : Nat), setProgramCounter v s = writeIndex s 32 v) ∧
  ∀ (s : State) (v : Nat), writeIndex s 0 v = s

/-- R52, R55, R56: an access is admitted exactly when all its bytes lie in the window; MemRead is then the sum of the bytes
each times 2^(8i) and changes nothing; MemWrite then replaces exactly those bytes, the low ones of the value first, and
otherwise writes none. -/
def Obligations.MemoryPrimitivesCheckThenTransfer : Prop :=
  (∀ (c : Config) (addr : Word) (n : Nat), inBounds c addr n = true ↔ InWindow c addr.toNat n) ∧
  (∀ (s : State) (addr : Word) (n : Nat), InWindow s.cfg addr.toNat n →
    memRead s addr n = some (((List.range n).map fun i => (s.mem.read (addr.toNat + i)).toNat * 2 ^ (8 * i)).sum)) ∧
  (∀ (s : State) (addr : Word) (n : Nat), ¬ InWindow s.cfg addr.toNat n → memRead s addr n = none) ∧
  (∀ (s : State) (addr : Word) (n : Nat) (v : Word), ¬ InWindow s.cfg addr.toNat n → memWrite s addr n v = none) ∧
  (∀ (s : State) (addr : Word) (n : Nat) (v : Word), Memory.wf s.mem → InWindow s.cfg addr.toNat n →
    ∃ t, memWrite s addr n v = some t ∧
      (∀ i, i < n → t.mem.read (addr.toNat + i) = (v >>> (8 * i)).setWidth 8) ∧
      (∀ a, a < addr.toNat ∨ addr.toNat + n ≤ a → t.mem.read a = s.mem.read a) ∧
      (∀ r, t.readReg r = s.readReg r) ∧ t.pc = s.pc ∧ t.status = s.status ∧ t.entry = s.entry ∧ t.cfg = s.cfg)

/-- R57, R282: a fetch of four bytes at pc that all lie in the window returns their little-endian word, at every alignment of
pc; otherwise it fails, and the step raises OutOfBounds(Fetch, pc) with no word and changes nothing else. -/
def Obligations.FetchReadsFourBytesOrEndsTheRun : Prop :=
  ∀ s : State,
    (InWindow s.cfg s.pc.toNat 4 → fetchWord s = some (s.mem.read (s.pc.toNat + 3) ++ s.mem.read (s.pc.toNat + 2) ++
      s.mem.read (s.pc.toNat + 1) ++ s.mem.read s.pc.toNat)) ∧
    (¬ InWindow s.cfg s.pc.toNat 4 → fetchWord s = none ∧
      (s.status = .running → ∃ t, step s = .next t ∧ SetsStatus s t (outOfBoundsStatus .fetch s.pc s.pc none)))

/-- R54, R68: after an SW that stays in the window, LW at its address gives the stored word, LB at each byte gives that byte
of it, least significant first, and a fetch there returns the word, with no fence. -/
def Obligations.StoredWordIsLoadedAndFetched : Prop :=
  ∀ (s t : State) (rs1 rs2 : Reg) (imm : BitVec 12), s.Inv → InWindow s.cfg (storeAddress rs1 imm s).toNat 4 →
    exec (.sw rs1 rs2 imm) s = .next t →
    fetchWord (t.setPc (storeAddress rs1 imm s)) = some (s.readReg rs2) ∧
    (∀ (rd r : Reg) (off : BitVec 12), loadAddress r off t = storeAddress rs1 imm s →
      ∃ u, exec (.lw rd r off) t = .next u ∧ WritesReg t u rd (s.readReg rs2) (t.pc + 4)) ∧
    (∀ (rd r : Reg) (off : BitVec 12) (i : Nat), i < 4 → loadAddress r off t = storeAddress rs1 imm s + BitVec.ofNat 32 i →
      ∃ u, exec (.lb rd r off) t = .next u ∧
        WritesReg t u rd (((s.readReg rs2).extractLsb' (8 * i) 8).signExtend 32) (t.pc + 4))

/-- R63, R136, R301: a segment that fits the window is copied to it, byte for byte, and nothing else changes; one that does
not fit is a bounds error to the host, and an error leaves no changed state. -/
def Obligations.LoadSegmentWritesAllOrNothing : Prop :=
  ∀ (s : State) (addr : Word) (payload : List Byte),
    (InWindow s.cfg addr.toNat payload.length → ∃ t, loadSegment addr payload s = .ok t ∧
      (Memory.wf s.mem → ∀ (i : Nat) (h : i < payload.length), t.mem.read (addr.toNat + i) = payload[i]) ∧
      (∀ a, a < addr.toNat ∨ addr.toNat + payload.length ≤ a → t.mem.read a = s.mem.read a) ∧
      (∀ r, t.readReg r = s.readReg r) ∧ t.pc = s.pc ∧ t.status = s.status ∧ t.entry = s.entry ∧ t.cfg = s.cfg) ∧
    (¬ InWindow s.cfg addr.toNat payload.length → loadSegment addr payload s = .error .bounds)

/-- R141: read_memory returns the bytes at the address when all lie in the window, and a bounds error otherwise. -/
def Obligations.ReadMemoryReturnsTheBytes : Prop :=
  ∀ (s : State) (addr : Word) (n : Nat),
    (InWindow s.cfg addr.toNat n →
      ∃ bs, readMemory s addr n = .ok bs ∧ bs.length = n ∧ ∀ (i : Nat) (h : i < bs.length), bs[i] = s.mem.read (addr.toNat + i)) ∧
    (¬ InWindow s.cfg addr.toNat n → readMemory s addr n = .error .bounds)

/-! ### The instructions -/

/-- R150, R151: the encodings of LUI and AUIPC, and in every state their completion, result and frame. -/
def Obligations.UpperImmediatesComputeTheirValue : Prop :=
  RowDecodes 0x0000007F 0x00000037 (fun w => .lui (w.extractLsb 11 7) (w.extractLsb 31 12)) ∧
  RowDecodes 0x0000007F 0x00000017 (fun w => .auipc (w.extractLsb 11 7) (w.extractLsb 31 12)) ∧
  (∀ rd imm, Computes (.lui rd imm) rd fun _ => BitVec.ofNat 32 (imm.toNat * 4096)) ∧
  (∀ rd imm, Computes (.auipc rd imm) rd fun s => BitVec.ofNat 32 (s.pc.toNat + imm.toNat * 4096))

/-- R160, R161: the encodings of JAL and JALR, their link, target and frame in every state, the old x[rs1] when rd = rs1, a
target outside the window failing at the next fetch, and JALR with another funct3 unknown. -/
def Obligations.JumpsLinkAndGoToTheirTarget : Prop :=
  RowDecodes 0x0000007F 0x0000006F
    (fun w => .jal (w.extractLsb 11 7) (w.extractLsb 31 31 ++ w.extractLsb 19 12 ++ w.extractLsb 20 20 ++ w.extractLsb 30 21 ++ 0#1)) ∧
  RowDecodes 0x0000707F 0x00000067 (fun w => .jalr (w.extractLsb 11 7) (w.extractLsb 19 15) (w.extractLsb 31 20)) ∧
  (∀ w : Word, w.extractLsb 6 0 = 0b1100111#7 → w.extractLsb 14 12 ≠ 0#3 → decode w = none) ∧
  (∀ rd off s, ∃ t, exec (.jal rd off) s = .next t ∧ NextFetchChecked t ∧
    WritesReg s t rd (s.pc + 4) (BitVec.ofInt 32 (s.pc.toNat + off.toInt))) ∧
  (∀ rd rs1 imm s, ∃ t, exec (.jalr rd rs1 imm) s = .next t ∧ NextFetchChecked t ∧
    WritesReg s t rd (s.pc + 4) (BitVec.ofNat 32 (2 * ((basePlus s rs1 imm).toNat / 2))))

/-- R171 to R179: the encodings of the nine immediate ALU instructions, other values of bits[31:25] in an SLLI word being
unknown, and in every state their completion, result and frame. -/
def Obligations.ImmediateAluInstructionsCompute : Prop :=
  RowDecodes 0x0000707F 0x00000013 (fun w => .addi (w.extractLsb 11 7) (w.extractLsb 19 15) (w.extractLsb 31 20)) ∧
  RowDecodes 0x0000707F 0x00002013 (fun w => .slti (w.extractLsb 11 7) (w.extractLsb 19 15) (w.extractLsb 31 20)) ∧
  RowDecodes 0x0000707F 0x00003013 (fun w => .sltiu (w.extractLsb 11 7) (w.extractLsb 19 15) (w.extractLsb 31 20)) ∧
  RowDecodes 0x0000707F 0x00004013 (fun w => .xori (w.extractLsb 11 7) (w.extractLsb 19 15) (w.extractLsb 31 20)) ∧
  RowDecodes 0x0000707F 0x00006013 (fun w => .ori (w.extractLsb 11 7) (w.extractLsb 19 15) (w.extractLsb 31 20)) ∧
  RowDecodes 0x0000707F 0x00007013 (fun w => .andi (w.extractLsb 11 7) (w.extractLsb 19 15) (w.extractLsb 31 20)) ∧
  RowDecodes 0xFE00707F 0x00001013 (fun w => .slli (w.extractLsb 11 7) (w.extractLsb 19 15) (w.extractLsb 24 20)) ∧
  RowDecodes 0xFE00707F 0x00005013 (fun w => .srli (w.extractLsb 11 7) (w.extractLsb 19 15) (w.extractLsb 24 20)) ∧
  RowDecodes 0xFE00707F 0x40005013 (fun w => .srai (w.extractLsb 11 7) (w.extractLsb 19 15) (w.extractLsb 24 20)) ∧
  (∀ w : Word, w &&& 0x707F = 0x1013 → w.extractLsb 31 25 ≠ 0#7 → decode w = none) ∧
  (∀ rd rs1 imm, Computes (.addi rd rs1 imm) rd fun s => BitVec.ofInt 32 ((s.readReg rs1).toInt + imm.toInt)) ∧
  (∀ rd rs1 imm, Computes (.slti rd rs1 imm) rd fun s => if (s.readReg rs1).toInt < imm.toInt then 1 else 0) ∧
  (∀ rd rs1 imm, Computes (.sltiu rd rs1 imm) rd fun s =>
    if (s.readReg rs1).toNat < (BitVec.ofInt 32 imm.toInt).toNat then 1 else 0) ∧
  (∀ rd rs1 imm, Computes (.xori rd rs1 imm) rd fun s => s.readReg rs1 ^^^ BitVec.ofInt 32 imm.toInt) ∧
  (∀ rd rs1 imm, Computes (.ori rd rs1 imm) rd fun s => s.readReg rs1 ||| BitVec.ofInt 32 imm.toInt) ∧
  (∀ rd rs1 imm, Computes (.andi rd rs1 imm) rd fun s => s.readReg rs1 &&& BitVec.ofInt 32 imm.toInt) ∧
  (∀ rd rs1 sh, Computes (.slli rd rs1 sh) rd fun s => BitVec.ofNat 32 ((s.readReg rs1).toNat * 2 ^ sh.toNat)) ∧
  (∀ rd rs1 sh, Computes (.srli rd rs1 sh) rd fun s => BitVec.ofNat 32 ((s.readReg rs1).toNat / 2 ^ sh.toNat)) ∧
  (∀ rd rs1 sh, Computes (.srai rd rs1 sh) rd fun s => BitVec.ofInt 32 ((s.readReg rs1).toInt / 2 ^ sh.toNat))

/-- R190 to R199: the encodings of the ten register ALU instructions, and in every state their completion, result (a shift
by the low five bits of x[rs2]) and frame. -/
def Obligations.RegisterAluInstructionsCompute : Prop :=
  RowDecodes 0xFE00707F 0x00000033 (fun w => .add (w.extractLsb 11 7) (w.extractLsb 19 15) (w.extractLsb 24 20)) ∧
  RowDecodes 0xFE00707F 0x40000033 (fun w => .sub (w.extractLsb 11 7) (w.extractLsb 19 15) (w.extractLsb 24 20)) ∧
  RowDecodes 0xFE00707F 0x00001033 (fun w => .sll (w.extractLsb 11 7) (w.extractLsb 19 15) (w.extractLsb 24 20)) ∧
  RowDecodes 0xFE00707F 0x00002033 (fun w => .slt (w.extractLsb 11 7) (w.extractLsb 19 15) (w.extractLsb 24 20)) ∧
  RowDecodes 0xFE00707F 0x00003033 (fun w => .sltu (w.extractLsb 11 7) (w.extractLsb 19 15) (w.extractLsb 24 20)) ∧
  RowDecodes 0xFE00707F 0x00004033 (fun w => .xor (w.extractLsb 11 7) (w.extractLsb 19 15) (w.extractLsb 24 20)) ∧
  RowDecodes 0xFE00707F 0x00005033 (fun w => .srl (w.extractLsb 11 7) (w.extractLsb 19 15) (w.extractLsb 24 20)) ∧
  RowDecodes 0xFE00707F 0x40005033 (fun w => .sra (w.extractLsb 11 7) (w.extractLsb 19 15) (w.extractLsb 24 20)) ∧
  RowDecodes 0xFE00707F 0x00006033 (fun w => .or (w.extractLsb 11 7) (w.extractLsb 19 15) (w.extractLsb 24 20)) ∧
  RowDecodes 0xFE00707F 0x00007033 (fun w => .and (w.extractLsb 11 7) (w.extractLsb 19 15) (w.extractLsb 24 20)) ∧
  (∀ rd rs1 rs2, Computes (.add rd rs1 rs2) rd fun s =>
    BitVec.ofNat 32 ((s.readReg rs1).toNat + (s.readReg rs2).toNat)) ∧
  (∀ rd rs1 rs2, Computes (.sub rd rs1 rs2) rd fun s =>
    BitVec.ofInt 32 ((s.readReg rs1).toInt - (s.readReg rs2).toInt)) ∧
  (∀ rd rs1 rs2, Computes (.sll rd rs1 rs2) rd fun s =>
    BitVec.ofNat 32 ((s.readReg rs1).toNat * 2 ^ ((s.readReg rs2).toNat % 32))) ∧
  (∀ rd rs1 rs2, Computes (.slt rd rs1 rs2) rd fun s =>
    if (s.readReg rs1).toInt < (s.readReg rs2).toInt then 1 else 0) ∧
  (∀ rd rs1 rs2, Computes (.sltu rd rs1 rs2) rd fun s =>
    if (s.readReg rs1).toNat < (s.readReg rs2).toNat then 1 else 0) ∧
  (∀ rd rs1 rs2, Computes (.xor rd rs1 rs2) rd fun s => s.readReg rs1 ^^^ s.readReg rs2) ∧
  (∀ rd rs1 rs2, Computes (.srl rd rs1 rs2) rd fun s =>
    BitVec.ofNat 32 ((s.readReg rs1).toNat / 2 ^ ((s.readReg rs2).toNat % 32))) ∧
  (∀ rd rs1 rs2, Computes (.sra rd rs1 rs2) rd fun s =>
    BitVec.ofInt 32 ((s.readReg rs1).toInt / 2 ^ ((s.readReg rs2).toNat % 32))) ∧
  (∀ rd rs1 rs2, Computes (.or rd rs1 rs2) rd fun s => s.readReg rs1 ||| s.readReg rs2) ∧
  (∀ rd rs1 rs2, Computes (.and rd rs1 rs2) rd fun s => s.readReg rs1 &&& s.readReg rs2)

/-- R210 to R216: the encodings of the six branches, and in every state their completion, the condition that takes them,
their target and frame; a target outside the window fails at the next fetch; BRANCH funct3 010 and 011 are unknown. -/
def Obligations.BranchesGoToTargetOrNext : Prop :=
  RowDecodes 0x0000707F 0x00000063
    (fun w => .beq (w.extractLsb 19 15) (w.extractLsb 24 20) (w.extractLsb 31 31 ++ w.extractLsb 7 7 ++ w.extractLsb 30 25 ++ w.extractLsb 11 8 ++ 0#1)) ∧
  RowDecodes 0x0000707F 0x00001063
    (fun w => .bne (w.extractLsb 19 15) (w.extractLsb 24 20) (w.extractLsb 31 31 ++ w.extractLsb 7 7 ++ w.extractLsb 30 25 ++ w.extractLsb 11 8 ++ 0#1)) ∧
  RowDecodes 0x0000707F 0x00004063
    (fun w => .blt (w.extractLsb 19 15) (w.extractLsb 24 20) (w.extractLsb 31 31 ++ w.extractLsb 7 7 ++ w.extractLsb 30 25 ++ w.extractLsb 11 8 ++ 0#1)) ∧
  RowDecodes 0x0000707F 0x00005063
    (fun w => .bge (w.extractLsb 19 15) (w.extractLsb 24 20) (w.extractLsb 31 31 ++ w.extractLsb 7 7 ++ w.extractLsb 30 25 ++ w.extractLsb 11 8 ++ 0#1)) ∧
  RowDecodes 0x0000707F 0x00006063
    (fun w => .bltu (w.extractLsb 19 15) (w.extractLsb 24 20) (w.extractLsb 31 31 ++ w.extractLsb 7 7 ++ w.extractLsb 30 25 ++ w.extractLsb 11 8 ++ 0#1)) ∧
  RowDecodes 0x0000707F 0x00007063
    (fun w => .bgeu (w.extractLsb 19 15) (w.extractLsb 24 20) (w.extractLsb 31 31 ++ w.extractLsb 7 7 ++ w.extractLsb 30 25 ++ w.extractLsb 11 8 ++ 0#1)) ∧
  (∀ w : Word, w.extractLsb 6 0 = 0b1100011#7 → w.extractLsb 14 12 ∈ [2#3, 3#3] → decode w = none) ∧
  (∀ rs1 rs2 off s, BranchesIf (.beq rs1 rs2 off) s off (s.readReg rs1 = s.readReg rs2)) ∧
  (∀ rs1 rs2 off s, BranchesIf (.bne rs1 rs2 off) s off (s.readReg rs1 ≠ s.readReg rs2)) ∧
  (∀ rs1 rs2 off s, BranchesIf (.blt rs1 rs2 off) s off ((s.readReg rs1).toInt < (s.readReg rs2).toInt)) ∧
  (∀ rs1 rs2 off s, BranchesIf (.bge rs1 rs2 off) s off ((s.readReg rs2).toInt ≤ (s.readReg rs1).toInt)) ∧
  (∀ rs1 rs2 off s, BranchesIf (.bltu rs1 rs2 off) s off ((s.readReg rs1).toNat < (s.readReg rs2).toNat)) ∧
  (∀ rs1 rs2 off s, BranchesIf (.bgeu rs1 rs2 off) s off ((s.readReg rs2).toNat ≤ (s.readReg rs1).toNat))

/-- R231 to R235: the encodings of the five loads, and in every state: with the bytes in the window, the extended
little-endian value in rd; otherwise OutOfBounds(Load, ea) and no other change. The transfer is the spec's decision D3. -/
def Obligations.LoadsExtendTheBytesTheyRead : Prop :=
  RowDecodes 0x0000707F 0x00000003 (fun w => .lb (w.extractLsb 11 7) (w.extractLsb 19 15) (w.extractLsb 31 20)) ∧
  RowDecodes 0x0000707F 0x00001003 (fun w => .lh (w.extractLsb 11 7) (w.extractLsb 19 15) (w.extractLsb 31 20)) ∧
  RowDecodes 0x0000707F 0x00002003 (fun w => .lw (w.extractLsb 11 7) (w.extractLsb 19 15) (w.extractLsb 31 20)) ∧
  RowDecodes 0x0000707F 0x00004003 (fun w => .lbu (w.extractLsb 11 7) (w.extractLsb 19 15) (w.extractLsb 31 20)) ∧
  RowDecodes 0x0000707F 0x00005003 (fun w => .lhu (w.extractLsb 11 7) (w.extractLsb 19 15) (w.extractLsb 31 20)) ∧
  (∀ rd rs1 imm s, LoadsOrFails (.lb rd rs1 imm) s (basePlus s rs1 imm) 1 rd
    ((s.mem.read (basePlus s rs1 imm).toNat).signExtend 32)) ∧
  (∀ rd rs1 imm s, LoadsOrFails (.lh rd rs1 imm) s (basePlus s rs1 imm) 2 rd
    ((s.mem.read ((basePlus s rs1 imm).toNat + 1) ++ s.mem.read (basePlus s rs1 imm).toNat).signExtend 32)) ∧
  (∀ rd rs1 imm s, LoadsOrFails (.lw rd rs1 imm) s (basePlus s rs1 imm) 4 rd
    (s.mem.read ((basePlus s rs1 imm).toNat + 3) ++ s.mem.read ((basePlus s rs1 imm).toNat + 2) ++
      s.mem.read ((basePlus s rs1 imm).toNat + 1) ++ s.mem.read (basePlus s rs1 imm).toNat)) ∧
  (∀ rd rs1 imm s, LoadsOrFails (.lbu rd rs1 imm) s (basePlus s rs1 imm) 1 rd
    ((s.mem.read (basePlus s rs1 imm).toNat).setWidth 32)) ∧
  (∀ rd rs1 imm s, LoadsOrFails (.lhu rd rs1 imm) s (basePlus s rs1 imm) 2 rd
    ((s.mem.read ((basePlus s rs1 imm).toNat + 1) ++ s.mem.read (basePlus s rs1 imm).toNat).setWidth 32))

/-- R239: a load whose rd is x0 performs its read: in bounds only pc changes, and out of bounds it raises like any load.
Its access stands in the step record either way. -/
def Obligations.LoadToZeroStillChecksItsAddress : Prop :=
  ∀ (i : Instr) (s : State) (a : Word) (n : Nat), destOf i = some 0 → loadOf i s = some (a, n) →
    (InWindow s.cfg a.toNat n → ∃ t, exec i s = .next t ∧ SetsPc s t (s.pc + 4)) ∧
    (¬ InWindow s.cfg a.toNat n →
      ∃ t, exec i s = .next t ∧ SetsStatus s t (outOfBoundsStatus .load a s.pc (some (encode i)))) ∧
    accessOf i s = some { kind := .load, addr := a, width := n, value := memRead s a n }

/-- R236 to R238: the encodings of the three stores, their address, and in every state whose memory is canonical: with the
bytes in the window, the low bytes of x[rs2] stored there, every other byte, every register and the status unchanged;
otherwise OutOfBounds(Store, ea) and no byte written. The transfer is the spec's decision D3. -/
def Obligations.StoresWriteTheirLowBytes : Prop :=
  RowDecodes 0x0000707F 0x00000023
    (fun w => .sb (w.extractLsb 19 15) (w.extractLsb 24 20) (w.extractLsb 31 25 ++ w.extractLsb 11 7)) ∧
  RowDecodes 0x0000707F 0x00001023
    (fun w => .sh (w.extractLsb 19 15) (w.extractLsb 24 20) (w.extractLsb 31 25 ++ w.extractLsb 11 7)) ∧
  RowDecodes 0x0000707F 0x00002023
    (fun w => .sw (w.extractLsb 19 15) (w.extractLsb 24 20) (w.extractLsb 31 25 ++ w.extractLsb 11 7)) ∧
  (∀ rs1 imm s, storeAddress rs1 imm s = basePlus s rs1 imm) ∧
  (∀ rs1 rs2 imm s, Memory.wf s.mem → StoresOrFails (.sb rs1 rs2 imm) s (storeAddress rs1 imm s) 1 (s.readReg rs2)) ∧
  (∀ rs1 rs2 imm s, Memory.wf s.mem → StoresOrFails (.sh rs1 rs2 imm) s (storeAddress rs1 imm s) 2 (s.readReg rs2)) ∧
  (∀ rs1 rs2 imm s, Memory.wf s.mem → StoresOrFails (.sw rs1 rs2 imm) s (storeAddress rs1 imm s) 4 (s.readReg rs2))

/-- R250, R251, R252, R285: the exact word of ECALL; with a7 = 93 it ends the run with success when a0 = 0 and else with the
failure code in x[FAIL_CODE_REG]; with another a7 it raises UnsupportedEnvironmentCall. Only the status changes. -/
def Obligations.EnvironmentCallExitsOrFails : Prop :=
  RowDecodes 0xFFFFFFFF 0x00000073 (fun _ => .ecall) ∧
  (∀ w : Word, decode w = some .ecall → w = 0x00000073) ∧
  ∀ s : State,
    (s.readReg 17 = 93 → s.readReg 10 = 0 → ∃ t, exec .ecall s = .next t ∧ SetsStatus s t .haltedSuccess) ∧
    (s.readReg 17 = 93 → s.readReg 10 ≠ 0 →
      ∃ t, exec .ecall s = .next t ∧ SetsStatus s t (.haltedFailure (s.readReg s.cfg.failCodeReg)) ∧ t.Safe) ∧
    (s.readReg 17 ≠ 93 → ∃ t, exec .ecall s = .next t ∧
      SetsStatus s t (.fatal { kind := .unsupportedEnvironmentCall, pc := s.pc, word := some 0x00000073 }))

/-- R253, R286: the exact word of EBREAK; it raises Breakpoint, always, and changes nothing but the status; after it step() takes
no step. -/
def Obligations.BreakpointEndsTheRun : Prop :=
  RowDecodes 0xFFFFFFFF 0x00100073 (fun _ => .ebreak) ∧
  ∀ s : State, ∃ t, exec .ebreak s = .next t ∧
    SetsStatus s t (.fatal { kind := .breakpoint, pc := s.pc, word := some 0x00100073 }) ∧
    hostStep t = (t, .status t.status)

/-- R254 to R257: the words of MRET, SRET, WFI and SFENCE.VMA; each advances pc by 4 in every state and does nothing else. -/
def Obligations.PrivilegedInstructionsOnlyAdvance : Prop :=
  RowDecodes 0xFFFFFFFF 0x30200073 (fun _ => .mret) ∧
  RowDecodes 0xFFFFFFFF 0x10200073 (fun _ => .sret) ∧
  RowDecodes 0xFFFFFFFF 0x10500073 (fun _ => .wfi) ∧
  RowDecodes 0xFE007FFF 0x12000073 (fun w => .sfenceVma (w.extractLsb 19 15) (w.extractLsb 24 20)) ∧
  OnlyAdvances .mret ∧ OnlyAdvances .sret ∧ OnlyAdvances .wfi ∧ ∀ rs1 rs2, OnlyAdvances (.sfenceVma rs1 rs2)

/-- R258 to R264: the words of the six CSR instructions; each advances pc by 4 in every state, whatever its fields, writes no
register (not rd) and does nothing else. -/
def Obligations.CsrInstructionsOnlyAdvance : Prop :=
  RowDecodes 0x0000707F 0x00001073 (fun w => .csrrw (w.extractLsb 11 7) (w.extractLsb 31 20) (w.extractLsb 19 15)) ∧
  RowDecodes 0x0000707F 0x00002073 (fun w => .csrrs (w.extractLsb 11 7) (w.extractLsb 31 20) (w.extractLsb 19 15)) ∧
  RowDecodes 0x0000707F 0x00003073 (fun w => .csrrc (w.extractLsb 11 7) (w.extractLsb 31 20) (w.extractLsb 19 15)) ∧
  RowDecodes 0x0000707F 0x00005073 (fun w => .csrrwi (w.extractLsb 11 7) (w.extractLsb 31 20) (w.extractLsb 19 15)) ∧
  RowDecodes 0x0000707F 0x00006073 (fun w => .csrrsi (w.extractLsb 11 7) (w.extractLsb 31 20) (w.extractLsb 19 15)) ∧
  RowDecodes 0x0000707F 0x00007073 (fun w => .csrrci (w.extractLsb 11 7) (w.extractLsb 31 20) (w.extractLsb 19 15)) ∧
  (∀ rd csr rs1, OnlyAdvances (.csrrw rd csr rs1) ∧ OnlyAdvances (.csrrs rd csr rs1) ∧ OnlyAdvances (.csrrc rd csr rs1)) ∧
  ∀ rd csr uimm, OnlyAdvances (.csrrwi rd csr uimm) ∧ OnlyAdvances (.csrrsi rd csr uimm) ∧
    OnlyAdvances (.csrrci rd csr uimm)

/-- R270, R271, R272: the words of FENCE and FENCE.I; each advances pc by 4 in every state, whatever its fields, and does
nothing else; MISC-MEM funct3 010 to 111 are unknown. -/
def Obligations.FencesOnlyAdvance : Prop :=
  RowDecodes 0x0000707F 0x0000000F
    (fun w => .fence (w.extractLsb 31 28) (w.extractLsb 27 24) (w.extractLsb 23 20) (w.extractLsb 19 15) (w.extractLsb 11 7)) ∧
  RowDecodes 0x0000707F 0x0000100F (fun w => .fenceI (w.extractLsb 31 20) (w.extractLsb 19 15) (w.extractLsb 11 7)) ∧
  (∀ w : Word, w.extractLsb 6 0 = 0b0001111#7 → 2 ≤ (w.extractLsb 14 12).toNat → decode w = none) ∧
  (∀ fm pred succ rs1 rd, OnlyAdvances (.fence fm pred succ rs1 rd)) ∧
  ∀ imm rs1 rd, OnlyAdvances (.fenceI imm rs1 rd)

/-! ### The step and the run -/

/-- R122: the step of a running state is the execute phase of the instruction its fetched word decodes to; a failed fetch and
an unknown word are steps that raise. Nothing is added around the execute phase: there is no delay slot (R317). -/
def Obligations.StepRunsTheDecodedInstruction : Prop :=
  ∀ s : State, s.status = .running →
    (∀ w i, fetchWord s = some w → decode w = some i → step s = exec i s) ∧
    (∀ w, fetchWord s = some w → decode w = none → ∃ t, step s = .next t ∧
      SetsStatus s t (.fatal { kind := .unknownInstruction, pc := s.pc, word := some w })) ∧
    (fetchWord s = none → ∃ t, step s = .next t ∧ SetsStatus s t (outOfBoundsStatus .fetch s.pc s.pc none))

/-- R121: a step is taken only when the status is Running. From any other, step answers the fault that says so, step() does
nothing and returns the status (R139), and run() returns at once (R130). -/
def Obligations.NoStepFromATerminalStatus : Prop :=
  ∀ s : State, s.status ≠ .running → step s = .fault .notRunning ∧ hostStep s = (s, .status s.status) ∧
    stepRecord s = none ∧ ∀ stops, ∃ r, r ≠ .stopped ∧ run stops s = (some r, s) ∧ continueRun stops s = (some r, s)

/-- R139: step() on a running state takes exactly one step and returns its record, and does not touch entry; on any other
state it does nothing and returns the status. It takes no stop flag. -/
def Obligations.HostStepTakesOneStep : Prop :=
  ∀ s : State,
    (s.status = .running → ∃ t r, step s = .next t ∧ stepRecord s = some r ∧ hostStep s = (t, .record r) ∧
      t.entry = s.entry) ∧
    (s.status ≠ .running → hostStep s = (s, .status s.status))

/-- R137, and R282 for a bad entry: set_entry writes entry, at every 32-bit value, and nothing else; after it, run() from a
running state whose entry lies outside the window ends with OutOfBounds(Fetch, entry), pc at entry, no register changed. -/
def Obligations.SetEntryIsCheckedByTheFirstFetch : Prop :=
  ∀ (s : State) (a : Word),
    (setEntry a s).entry = a ∧ (∀ r, (setEntry a s).readReg r = s.readReg r) ∧ (setEntry a s).pc = s.pc ∧
    (∀ b, (setEntry a s).mem.read b = s.mem.read b) ∧ (setEntry a s).status = s.status ∧ (setEntry a s).cfg = s.cfg ∧
    (s.status = .running → ¬ InWindow s.cfg a.toNat 4 → ∀ rest, ∃ u,
      run (false :: rest) (setEntry a s) =
        (some (.fatalError { kind := .outOfBounds .fetch a, pc := a, word := none }), u) ∧
      u.pc = a ∧ ∀ r, u.readReg r = s.readReg r)

/-- R35: no instruction reads or writes entry (with another entry each does the same and leaves that entry as it is), set_entry
writes it, and run() copies it into pc before the first step. -/
def Obligations.NoInstructionReadsOrWritesEntry : Prop :=
  (∀ (i : Instr) (s t : State) (a : Word), exec i s = .next t →
    t.entry = s.entry ∧ exec i (setEntry a s) = .next (setEntry a t)) ∧
  (∀ (s : State) (a : Word), (setEntry a s).entry = a) ∧
  ∀ (s : State) (stops : List Bool), s.status = .running → run stops s = continueRun stops (s.setPc s.entry)

/-- R127: a step of a running state always ends, in one of three ways: the status stays Running, or the step halts, or it raises,
and a halt or raise sets the status and changes nothing else; no instruction waits, stalls, faults or is refused. -/
def Obligations.StepEndsInOneOfThreeWays : Prop :=
  ∀ s : State, s.status = .running → ∃ t, step s = .next t ∧
    (t.status = .running ∨ SetsStatus s t .haltedSuccess ∨ (∃ code, SetsStatus s t (.haltedFailure code)) ∨
      ∃ info, SetsStatus s t (.fatal info))

/-- R124: the next pc is pc + 4 for every instruction except JAL, JALR and a taken branch, and a step that halts or raises does
not change pc. -/
def Obligations.PcAdvancesByFourUnlessReplaced : Prop :=
  ∀ (i : Instr) (s t : State), s.status = .running → exec i s = .next t →
    (t.status = .running → ¬ ReplacesPc i s → t.pc = s.pc + 4) ∧ (t.status ≠ .running → t.pc = s.pc)

/-- R30, R64: an instruction that answers a next state changes no register but its format's destination, no byte but those of
its own store, and never entry or the parameters; x0 stays 0. -/
def Obligations.OnlyNamedStateChanges : Prop :=
  ∀ (i : Instr) (s t : State), exec i s = .next t →
    (∀ r, destOf i ≠ some r → t.readReg r = s.readReg r) ∧ t.readReg 0 = 0 ∧
    (∀ b, (∀ a n, storeOf i s = some (a, n) → b < a.toNat ∨ a.toNat + n ≤ b) → t.mem.read b = s.mem.read b) ∧
    t.entry = s.entry ∧ t.cfg = s.cfg

/-- R125, R288: a step that raises changes nothing but the status, the record's pc is the address of the failing instruction,
and after it step() takes no step. -/
def Obligations.FatalErrorsArePrecise : Prop :=
  ∀ (s t : State) (info : FatalInfo), step s = .next t → t.status = .fatal info →
    SetsStatus s t (.fatal info) ∧ info.pc = s.pc ∧ hostStep t = (t, .status t.status)

/-- The table of R281 (with R282 to R286): a step of a running state ends in Fatal(info) exactly in its six cases, with the
record it gives. The record's word is the fetched word. The order fetch, decode, execute is R290's, which the spec marks as
derived from R122. -/
def Obligations.FatalErrorsAreExactlyTheTable : Prop :=
  ∀ (s : State) (info : FatalInfo), s.status = .running →
    ((∃ t, step s = .next t ∧ t.status = .fatal info) ↔
      (¬ InWindow s.cfg s.pc.toNat 4 ∧ info = { kind := .outOfBounds .fetch s.pc, pc := s.pc, word := none }) ∨
      (∃ w, fetchWord s = some w ∧ info.pc = s.pc ∧ info.word = some w ∧
        ((decode w = none ∧ info.kind = .unknownInstruction) ∨
          (∃ i a n, decode w = some i ∧ loadOf i s = some (a, n) ∧ ¬ InWindow s.cfg a.toNat n ∧
            info.kind = .outOfBounds .load a) ∨
          (∃ i a n, decode w = some i ∧ storeOf i s = some (a, n) ∧ ¬ InWindow s.cfg a.toNat n ∧
            info.kind = .outOfBounds .store a) ∨
          (w = 0x00000073 ∧ s.readReg 17 ≠ 93 ∧ info.kind = .unsupportedEnvironmentCall) ∨
          (w = 0x00100073 ∧ info.kind = .breakpoint))))

/-- R250, R321: a step of a running state halts exactly at the word of ECALL with a7 = 93: with success when a0 = 0, and else
with the failure code; no other step ends a run without an error. -/
def Obligations.OnlyTheExitCallHalts : Prop :=
  ∀ s t : State, s.status = .running → step s = .next t →
    (t.status = .haltedSuccess ↔ fetchWord s = some 0x00000073 ∧ s.readReg 17 = 93 ∧ s.readReg 10 = 0) ∧
    ∀ code, (t.status = .haltedFailure code ↔
      fetchWord s = some 0x00000073 ∧ s.readReg 17 = 93 ∧ s.readReg 10 ≠ 0 ∧ code = s.readReg s.cfg.failCodeReg)

/-- R36, R126, R230: every step of a running state emits exactly one record, with its pc, its word (none if the fetch failed)
and, for a load or store alone, the effective address, the width and the bytes read or written, none if the access
failed. The bytes a store writes are those the next state holds there. -/
def Obligations.StepRecordShowsTheAccess : Prop :=
  ∀ s : State, s.status = .running → ∃ r, stepRecord s = some r ∧ r.pc = s.pc ∧ r.word = fetchWord s ∧
    (fetchWord s = none → r.access = none) ∧
    (∀ w, fetchWord s = some w → decode w = none → r.access = none) ∧
    (∀ w i, fetchWord s = some w → decode w = some i →
      (∀ a n, loadOf i s = some (a, n) →
        r.access = some { kind := .load, addr := a, width := n, value := memRead s a n }) ∧
      (∀ a n t, Memory.wf s.mem → storeOf i s = some (a, n) → step s = .next t →
        r.access = some { kind := .store, addr := a, width := n, value := memRead t a n }) ∧
      (loadOf i s = none → storeOf i s = none → r.access = none))

/-- R130: run() and continue_run(), line by line: a terminal status is returned, run copies entry into pc, the stop flag is read
between steps and ends the loop with the status still Running, and otherwise one step is taken. The list of samples is the
model's form of the flag (log 6); each line holds for every list. -/
def Obligations.RunCopiesTheEntryAndLoops : Prop :=
  (∀ (s : State) (stops : List Bool) (r : RunResult), resultOf s.status = some r →
    run stops s = (some r, s) ∧ continueRun stops s = (some r, s)) ∧
  (∀ (s : State) (stops : List Bool), s.status = .running → run stops s = continueRun stops (s.setPc s.entry)) ∧
  (∀ (s : State) (rest : List Bool), s.status = .running → continueRun (true :: rest) s = (some .stopped, s)) ∧
  (∀ (s t : State) (rest : List Bool), s.status = .running → step s = .next t →
    continueRun (false :: rest) s = continueRun rest t)

/-- What run() and continue_run() return is the result the last state's status stands for, or Stopped with the status still
Running (R132); and continue_run()'s last state is reached by whole steps (R130), at most one for each sample of the stop
flag, whose finite list of samples is the model's form of the input (log 6). -/
def Obligations.RunResultIsTheStatusOfAReachedState : Prop :=
  ∀ (stops : List Bool) (s t : State) (r : RunResult),
    (continueRun stops s = (some r, t) ∨ run stops s = (some r, t) →
      (r = .haltedSuccess ∧ t.status = .haltedSuccess) ∨
      (∃ code, r = .haltedFailure code ∧ t.status = .haltedFailure code) ∨
      (∃ info, r = .fatalError info ∧ t.status = .fatal info) ∨ (r = .stopped ∧ t.status = .running)) ∧
    (continueRun stops s = (some r, t) →
      ∃ k, k ≤ stops.length ∧ Host.Core.run Sys2Proof.core k s = .next t)

/-- The model's own loading convention (log 5; the host's operations of R314 do the same): from a state that meets the
invariant, the placed word of a well-formed instruction is the one the next step runs; registers, entry, parameters and
every other byte stay, and the invariant holds. -/
def Obligations.PlacedInstructionIsTheNextOneRun : Prop :=
  ∀ (s : State) (i : Instr), s.Inv → i.wf = true →
    step (s.withFetchWord 32 (encode i).toNat) = exec i (s.withFetchWord 32 (encode i).toNat) ∧
    (s.withFetchWord 32 (encode i).toNat).Inv ∧
    (∀ r, (s.withFetchWord 32 (encode i).toNat).readReg r = s.readReg r) ∧
    (∀ a, a < (fetchSlot s).toNat ∨ (fetchSlot s).toNat + 4 ≤ a →
      (s.withFetchWord 32 (encode i).toNat).mem.read a = s.mem.read a) ∧
    (s.withFetchWord 32 (encode i).toNat).entry = s.entry ∧ (s.withFetchWord 32 (encode i).toNat).cfg = s.cfg

/-- The model's choice of the state right after reset (log 1, log 7): State.reset has the default parameters of R11 and R12,
and every byte reads 0, the spec's default for MEM_INIT (R13, D18). -/
def Obligations.ResetUsesTheDefaultParameters : Prop :=
  State.reset.cfg.memBase = 0x80000000 ∧ State.reset.cfg.memSize = 65536 ∧ State.reset.cfg.failCodeReg = 3 ∧
  ∀ a, State.reset.mem.read a = 0
end

