-- ==== Sys2Proof/Laws/Decode.lean ====
section
/-!
SUPPORT. The bits of fields and of encoded words, that each format's fields read back what was encoded (30_encoding.md
R83 to R88), and that the decode table is a function: no two of its rows match one word (R98).
-/
namespace Sys2Proof

/-! ### Bits of a field -/

theorem bits_bit (w : Word) (hi lo i : Nat) :
    (bits w hi lo).getLsbD i = (decide (i < hi - lo + 1) && w.getLsbD (lo + i)) := by
  simp [bits]

theorem immSField_bit (w : Word) (i : Nat) :
    (immSField w).getLsbD i = if i < 5 then (bits w 11 7).getLsbD i else (bits w 31 25).getLsbD (i - 5) := by
  show BitVec.getLsbD (w := 7 + 5) (bits w 31 25 ++ bits w 11 7) i = _
  exact BitVec.getLsbD_append

theorem immBField_bit (w : Word) (i : Nat) :
    (immBField w).getLsbD i =
      if i < 1 then (0#1).getLsbD i else if i - 1 < 4 then (bits w 11 8).getLsbD (i - 1)
      else if i - 1 - 4 < 6 then (bits w 30 25).getLsbD (i - 1 - 4)
      else if i - 1 - 4 - 6 < 1 then (bits w 7 7).getLsbD (i - 1 - 4 - 6)
      else (bits w 31 31).getLsbD (i - 1 - 4 - 6 - 1) := by
  show BitVec.getLsbD (w := 1 + 1 + 6 + 4 + 1)
    (bits w 31 31 ++ bits w 7 7 ++ bits w 30 25 ++ bits w 11 8 ++ 0#1) i = _
  simp only [BitVec.getLsbD_append]

theorem immJField_bit (w : Word) (i : Nat) :
    (immJField w).getLsbD i =
      if i < 1 then (0#1).getLsbD i else if i - 1 < 10 then (bits w 30 21).getLsbD (i - 1)
      else if i - 1 - 10 < 1 then (bits w 20 20).getLsbD (i - 1 - 10)
      else if i - 1 - 10 - 1 < 8 then (bits w 19 12).getLsbD (i - 1 - 10 - 1)
      else (bits w 31 31).getLsbD (i - 1 - 10 - 1 - 8) := by
  show BitVec.getLsbD (w := 1 + 8 + 1 + 10 + 1)
    (bits w 31 31 ++ bits w 19 12 ++ bits w 20 20 ++ bits w 30 21 ++ 0#1) i = _
  simp only [BitVec.getLsbD_append]

/-! ### Bits of an encoded word -/

theorem encodeR_bit (f7 : BitVec 7) (rs2 rs1 : Reg) (f3 : BitVec 3) (rd : Reg) (op : BitVec 7) (i : Nat) :
    (encodeR f7 rs2 rs1 f3 rd op).getLsbD i =
      if i < 7 then op.getLsbD i else
      if i - 7 < 5 then rd.getLsbD (i - 7) else
      if i - 7 - 5 < 3 then f3.getLsbD (i - 7 - 5) else
      if i - 7 - 5 - 3 < 5 then rs1.getLsbD (i - 7 - 5 - 3) else
      if i - 7 - 5 - 3 - 5 < 5 then rs2.getLsbD (i - 7 - 5 - 3 - 5) else
      f7.getLsbD (i - 7 - 5 - 3 - 5 - 5) := by
  show BitVec.getLsbD (w := 7 + 5 + 5 + 3 + 5 + 7)
    (f7 ++ rs2 ++ rs1 ++ f3 ++ rd ++ op) i = _
  simp only [BitVec.getLsbD_append]

theorem encodeI_bit (imm : BitVec 12) (rs1 : Reg) (f3 : BitVec 3) (rd : Reg) (op : BitVec 7) (i : Nat) :
    (encodeI imm rs1 f3 rd op).getLsbD i =
      if i < 7 then op.getLsbD i else
      if i - 7 < 5 then rd.getLsbD (i - 7) else
      if i - 7 - 5 < 3 then f3.getLsbD (i - 7 - 5) else
      if i - 7 - 5 - 3 < 5 then rs1.getLsbD (i - 7 - 5 - 3) else
      imm.getLsbD (i - 7 - 5 - 3 - 5) := by
  show BitVec.getLsbD (w := 12 + 5 + 3 + 5 + 7)
    (imm ++ rs1 ++ f3 ++ rd ++ op) i = _
  simp only [BitVec.getLsbD_append]

theorem encodeS_bit (imm : BitVec 12) (rs2 rs1 : Reg) (f3 : BitVec 3) (op : BitVec 7) (i : Nat) :
    (encodeS imm rs2 rs1 f3 op).getLsbD i =
      if i < 7 then op.getLsbD i else
      if i - 7 < 5 then (imm.extractLsb 4 0).getLsbD (i - 7) else
      if i - 7 - 5 < 3 then f3.getLsbD (i - 7 - 5) else
      if i - 7 - 5 - 3 < 5 then rs1.getLsbD (i - 7 - 5 - 3) else
      if i - 7 - 5 - 3 - 5 < 5 then rs2.getLsbD (i - 7 - 5 - 3 - 5) else
      (imm.extractLsb 11 5).getLsbD (i - 7 - 5 - 3 - 5 - 5) := by
  show BitVec.getLsbD (w := 7 + 5 + 5 + 3 + 5 + 7)
    (imm.extractLsb 11 5 ++ rs2 ++ rs1 ++ f3 ++ imm.extractLsb 4 0 ++ op) i = _
  simp only [BitVec.getLsbD_append]

theorem encodeB_bit (off : BitVec 13) (rs2 rs1 : Reg) (f3 : BitVec 3) (op : BitVec 7) (i : Nat) :
    (encodeB off rs2 rs1 f3 op).getLsbD i =
      if i < 7 then op.getLsbD i else
      if i - 7 < 1 then (off.extractLsb 11 11).getLsbD (i - 7) else
      if i - 7 - 1 < 4 then (off.extractLsb 4 1).getLsbD (i - 7 - 1) else
      if i - 7 - 1 - 4 < 3 then f3.getLsbD (i - 7 - 1 - 4) else
      if i - 7 - 1 - 4 - 3 < 5 then rs1.getLsbD (i - 7 - 1 - 4 - 3) else
      if i - 7 - 1 - 4 - 3 - 5 < 5 then rs2.getLsbD (i - 7 - 1 - 4 - 3 - 5) else
      if i - 7 - 1 - 4 - 3 - 5 - 5 < 6 then (off.extractLsb 10 5).getLsbD (i - 7 - 1 - 4 - 3 - 5 - 5) else
      (off.extractLsb 12 12).getLsbD (i - 7 - 1 - 4 - 3 - 5 - 5 - 6) := by
  show BitVec.getLsbD (w := 1 + 6 + 5 + 5 + 3 + 4 + 1 + 7)
    (off.extractLsb 12 12 ++ off.extractLsb 10 5 ++ rs2 ++ rs1 ++ f3 ++ off.extractLsb 4 1 ++ off.extractLsb 11 11 ++ op) i = _
  simp only [BitVec.getLsbD_append]

theorem encodeU_bit (imm : BitVec 20) (rd : Reg) (op : BitVec 7) (i : Nat) :
    (encodeU imm rd op).getLsbD i =
      if i < 7 then op.getLsbD i else
      if i - 7 < 5 then rd.getLsbD (i - 7) else
      imm.getLsbD (i - 7 - 5) := by
  show BitVec.getLsbD (w := 20 + 5 + 7)
    (imm ++ rd ++ op) i = _
  simp only [BitVec.getLsbD_append]

theorem encodeJ_bit (off : BitVec 21) (rd : Reg) (op : BitVec 7) (i : Nat) :
    (encodeJ off rd op).getLsbD i =
      if i < 7 then op.getLsbD i else
      if i - 7 < 5 then rd.getLsbD (i - 7) else
      if i - 7 - 5 < 8 then (off.extractLsb 19 12).getLsbD (i - 7 - 5) else
      if i - 7 - 5 - 8 < 1 then (off.extractLsb 11 11).getLsbD (i - 7 - 5 - 8) else
      if i - 7 - 5 - 8 - 1 < 10 then (off.extractLsb 10 1).getLsbD (i - 7 - 5 - 8 - 1) else
      (off.extractLsb 20 20).getLsbD (i - 7 - 5 - 8 - 1 - 10) := by
  show BitVec.getLsbD (w := 1 + 10 + 1 + 8 + 5 + 7)
    (off.extractLsb 20 20 ++ off.extractLsb 10 1 ++ off.extractLsb 11 11 ++ off.extractLsb 19 12 ++ rd ++ op) i = _
  simp only [BitVec.getLsbD_append]

/-! ### Each format's fields read back -/

theorem encodeR_rd (f7 : BitVec 7) (rs2 rs1 : Reg) (f3 : BitVec 3) (rd : Reg) (op : BitVec 7) :
    rdField (encodeR f7 rs2 rs1 f3 rd op) = rd := by
  apply BitVec.eq_of_getLsbD_eq
  intro i hi
  interval_cases i <;> simp only [rdField, bits_bit, encodeR_bit] <;> rfl

theorem encodeR_rs1 (f7 : BitVec 7) (rs2 rs1 : Reg) (f3 : BitVec 3) (rd : Reg) (op : BitVec 7) :
    rs1Field (encodeR f7 rs2 rs1 f3 rd op) = rs1 := by
  apply BitVec.eq_of_getLsbD_eq
  intro i hi
  interval_cases i <;> simp only [rs1Field, bits_bit, encodeR_bit] <;> rfl

theorem encodeR_rs2 (f7 : BitVec 7) (rs2 rs1 : Reg) (f3 : BitVec 3) (rd : Reg) (op : BitVec 7) :
    rs2Field (encodeR f7 rs2 rs1 f3 rd op) = rs2 := by
  apply BitVec.eq_of_getLsbD_eq
  intro i hi
  interval_cases i <;> simp only [rs2Field, bits_bit, encodeR_bit] <;> rfl

theorem encodeI_rd (imm : BitVec 12) (rs1 : Reg) (f3 : BitVec 3) (rd : Reg) (op : BitVec 7) :
    rdField (encodeI imm rs1 f3 rd op) = rd := by
  apply BitVec.eq_of_getLsbD_eq
  intro i hi
  interval_cases i <;> simp only [rdField, bits_bit, encodeI_bit] <;> rfl

theorem encodeI_rs1 (imm : BitVec 12) (rs1 : Reg) (f3 : BitVec 3) (rd : Reg) (op : BitVec 7) :
    rs1Field (encodeI imm rs1 f3 rd op) = rs1 := by
  apply BitVec.eq_of_getLsbD_eq
  intro i hi
  interval_cases i <;> simp only [rs1Field, bits_bit, encodeI_bit] <;> rfl

theorem encodeI_imm (imm : BitVec 12) (rs1 : Reg) (f3 : BitVec 3) (rd : Reg) (op : BitVec 7) :
    immIField (encodeI imm rs1 f3 rd op) = imm := by
  apply BitVec.eq_of_getLsbD_eq
  intro i hi
  interval_cases i <;> simp only [immIField, bits_bit, encodeI_bit] <;> rfl

theorem encodeS_rs1 (imm : BitVec 12) (rs2 rs1 : Reg) (f3 : BitVec 3) (op : BitVec 7) :
    rs1Field (encodeS imm rs2 rs1 f3 op) = rs1 := by
  apply BitVec.eq_of_getLsbD_eq
  intro i hi
  interval_cases i <;> simp only [rs1Field, bits_bit, encodeS_bit] <;> rfl

theorem encodeS_rs2 (imm : BitVec 12) (rs2 rs1 : Reg) (f3 : BitVec 3) (op : BitVec 7) :
    rs2Field (encodeS imm rs2 rs1 f3 op) = rs2 := by
  apply BitVec.eq_of_getLsbD_eq
  intro i hi
  interval_cases i <;> simp only [rs2Field, bits_bit, encodeS_bit] <;> rfl

theorem encodeS_imm (imm : BitVec 12) (rs2 rs1 : Reg) (f3 : BitVec 3) (op : BitVec 7) :
    immSField (encodeS imm rs2 rs1 f3 op) = imm := by
  apply BitVec.eq_of_getLsbD_eq
  intro i hi
  interval_cases i <;> simp only [immSField_bit, bits_bit, encodeS_bit, BitVec.getLsbD_extractLsb] <;> rfl

theorem encodeB_rs1 (off : BitVec 13) (rs2 rs1 : Reg) (f3 : BitVec 3) (op : BitVec 7) :
    rs1Field (encodeB off rs2 rs1 f3 op) = rs1 := by
  apply BitVec.eq_of_getLsbD_eq
  intro i hi
  interval_cases i <;> simp only [rs1Field, bits_bit, encodeB_bit] <;> rfl

theorem encodeB_rs2 (off : BitVec 13) (rs2 rs1 : Reg) (f3 : BitVec 3) (op : BitVec 7) :
    rs2Field (encodeB off rs2 rs1 f3 op) = rs2 := by
  apply BitVec.eq_of_getLsbD_eq
  intro i hi
  interval_cases i <;> simp only [rs2Field, bits_bit, encodeB_bit] <;> rfl

theorem encodeB_off (off : BitVec 13) (rs2 rs1 : Reg) (f3 : BitVec 3) (op : BitVec 7) (h : evenOffset off = true) :
    immBField (encodeB off rs2 rs1 f3 op) = off := by
  have h0 : off.getLsbD 0 = false := by simpa [evenOffset] using h
  apply BitVec.eq_of_getLsbD_eq
  intro i hi
  interval_cases i <;> simp only [immBField_bit, bits_bit, encodeB_bit, BitVec.getLsbD_extractLsb, h0] <;> rfl

theorem encodeU_rd (imm : BitVec 20) (rd : Reg) (op : BitVec 7) :
    rdField (encodeU imm rd op) = rd := by
  apply BitVec.eq_of_getLsbD_eq
  intro i hi
  interval_cases i <;> simp only [rdField, bits_bit, encodeU_bit] <;> rfl

theorem encodeU_imm (imm : BitVec 20) (rd : Reg) (op : BitVec 7) :
    immUField (encodeU imm rd op) = imm := by
  apply BitVec.eq_of_getLsbD_eq
  intro i hi
  interval_cases i <;> simp only [immUField, bits_bit, encodeU_bit] <;> rfl

theorem encodeJ_rd (off : BitVec 21) (rd : Reg) (op : BitVec 7) :
    rdField (encodeJ off rd op) = rd := by
  apply BitVec.eq_of_getLsbD_eq
  intro i hi
  interval_cases i <;> simp only [rdField, bits_bit, encodeJ_bit] <;> rfl

theorem encodeJ_off (off : BitVec 21) (rd : Reg) (op : BitVec 7) (h : evenOffset off = true) :
    immJField (encodeJ off rd op) = off := by
  have h0 : off.getLsbD 0 = false := by simpa [evenOffset] using h
  apply BitVec.eq_of_getLsbD_eq
  intro i hi
  interval_cases i <;> simp only [immJField_bit, bits_bit, encodeJ_bit, BitVec.getLsbD_extractLsb, h0] <;> rfl

theorem encodeR_shamt (f7 : BitVec 7) (rs2 rs1 : Reg) (f3 : BitVec 3) (rd : Reg) (op : BitVec 7) :
    shamtField (encodeR f7 rs2 rs1 f3 rd op) = rs2 := by
  apply BitVec.eq_of_getLsbD_eq
  intro i hi
  interval_cases i <;> simp only [shamtField, bits_bit, encodeR_bit] <;> rfl

theorem encodeI_fm (fm pred succ : BitVec 4) (rs1 : Reg) (f3 : BitVec 3) (rd : Reg) (op : BitVec 7) :
    bits (encodeI (fm ++ pred ++ succ) rs1 f3 rd op) 31 28 = fm := by
  apply BitVec.eq_of_getLsbD_eq
  intro i hi
  interval_cases i <;> simp only [bits_bit, encodeI_bit, BitVec.getLsbD_append] <;> rfl

theorem encodeI_pred (fm pred succ : BitVec 4) (rs1 : Reg) (f3 : BitVec 3) (rd : Reg) (op : BitVec 7) :
    bits (encodeI (fm ++ pred ++ succ) rs1 f3 rd op) 27 24 = pred := by
  apply BitVec.eq_of_getLsbD_eq
  intro i hi
  interval_cases i <;> simp only [bits_bit, encodeI_bit, BitVec.getLsbD_append] <;> rfl

theorem encodeI_succ (fm pred succ : BitVec 4) (rs1 : Reg) (f3 : BitVec 3) (rd : Reg) (op : BitVec 7) :
    bits (encodeI (fm ++ pred ++ succ) rs1 f3 rd op) 23 20 = succ := by
  apply BitVec.eq_of_getLsbD_eq
  intro i hi
  interval_cases i <;> simp only [bits_bit, encodeI_bit, BitVec.getLsbD_append] <;> rfl

/-! ### The bits a mask keeps -/

theorem encodeI_mask (imm : BitVec 12) (rs1 : Reg) (f3 : BitVec 3) (rd : Reg) (op : BitVec 7) : encodeI imm rs1 f3 rd op &&& 0x707F = encodeI 0 0 f3 0 op := by
  apply BitVec.eq_of_getLsbD_eq
  intro i hi
  interval_cases i <;> simp only [BitVec.getLsbD_and, encodeI_bit] <;> simp

theorem encodeS_mask (imm : BitVec 12) (rs2 rs1 : Reg) (f3 : BitVec 3) (op : BitVec 7) : encodeS imm rs2 rs1 f3 op &&& 0x707F = encodeI 0 0 f3 0 op := by
  apply BitVec.eq_of_getLsbD_eq
  intro i hi
  interval_cases i <;> simp only [BitVec.getLsbD_and, encodeS_bit, encodeI_bit] <;> simp

theorem encodeB_mask (off : BitVec 13) (rs2 rs1 : Reg) (f3 : BitVec 3) (op : BitVec 7) : encodeB off rs2 rs1 f3 op &&& 0x707F = encodeI 0 0 f3 0 op := by
  apply BitVec.eq_of_getLsbD_eq
  intro i hi
  interval_cases i <;> simp only [BitVec.getLsbD_and, encodeB_bit, encodeI_bit] <;> simp

theorem encodeR_mask (f7 : BitVec 7) (rs2 rs1 : Reg) (f3 : BitVec 3) (rd : Reg) (op : BitVec 7) : encodeR f7 rs2 rs1 f3 rd op &&& 0xFE00707F = encodeR f7 0 0 f3 0 op := by
  apply BitVec.eq_of_getLsbD_eq
  intro i hi
  interval_cases i <;> simp only [BitVec.getLsbD_and, encodeR_bit] <;> simp

theorem encodeU_mask (imm : BitVec 20) (rd : Reg) (op : BitVec 7) : encodeU imm rd op &&& 0x7F = encodeI 0 0 0 0 op := by
  apply BitVec.eq_of_getLsbD_eq
  intro i hi
  interval_cases i <;> simp only [BitVec.getLsbD_and, encodeU_bit, encodeI_bit] <;> simp

theorem encodeJ_mask (off : BitVec 21) (rd : Reg) (op : BitVec 7) : encodeJ off rd op &&& 0x7F = encodeI 0 0 0 0 op := by
  apply BitVec.eq_of_getLsbD_eq
  intro i hi
  interval_cases i <;> simp only [BitVec.getLsbD_and, encodeJ_bit, encodeI_bit] <;> simp

/-! ### The table is a function -/

/-- No two rows of the table match one word: they differ in a bit that both fix (R98). -/
theorem decodeTable_disjoint :
    decodeTable.Pairwise (fun r q => (r.pattern ^^^ q.pattern) &&& (r.mask &&& q.mask) ≠ 0) := by
  decide +kernel

theorem Row.matchesWord_iff (r : Row) (w : Word) : r.matchesWord w = true ↔ w &&& r.mask = r.pattern := by
  simp [Row.matchesWord]

/-- Two rows that match one word agree in every bit that both fix. -/
theorem agree_of_matches {w m p m' p' : Word} (h : w &&& m = p) (h' : w &&& m' = p') : (p ^^^ p') &&& (m &&& m') = 0 := by
  subst h h'
  apply BitVec.eq_of_getLsbD_eq
  intro i hi
  simp only [BitVec.getLsbD_and, BitVec.getLsbD_xor]
  cases w.getLsbD i <;> cases m.getLsbD i <;> cases m'.getLsbD i <;> simp

/-- In a list of rows no two of which match one word, a row that matches is the one found. -/
theorem find_of_disjoint {rows : List Row} {r : Row} {w : Word}
    (hd : rows.Pairwise (fun r q => (r.pattern ^^^ q.pattern) &&& (r.mask &&& q.mask) ≠ 0))
    (hr : r ∈ rows) (hw : w &&& r.mask = r.pattern) : rows.find? (·.matchesWord w) = some r := by
  induction rows with
  | nil => cases hr
  | cons q rows ih =>
    have hp := List.pairwise_cons.mp hd
    by_cases hq : q.matchesWord w = true
    · rw [List.find?_cons_of_pos (by simpa using hq)]
      rcases List.mem_cons.mp hr with rfl | hr
      · rfl
      · exact absurd (agree_of_matches (q.matchesWord_iff w |>.mp hq) hw) (hp.1 r hr)
    · rw [List.find?_cons_of_neg (by simpa using hq)]
      rcases List.mem_cons.mp hr with rfl | hr
      · exact absurd (r.matchesWord_iff w |>.mpr hw) hq
      · exact ih hp.2 hr

/-- A word is the instruction of the row that matches it (R98). -/
theorem decode_of_row {r : Row} {w : Word} (hr : r ∈ decodeTable) (hw : w &&& r.mask = r.pattern) :
    decode w = some (r.build w) := by
  rw [decode, find_of_disjoint decodeTable_disjoint hr hw]; rfl

/-- What decode answers, read off the table (R98, R104). -/
theorem decode_eq_some {w : Word} {i : Instr} (h : decode w = some i) :
    ∃ r ∈ decodeTable, w &&& r.mask = r.pattern ∧ r.build w = i := by
  obtain ⟨r, hf, hb⟩ := Option.map_eq_some_iff.mp h
  exact ⟨r, List.mem_of_find?_eq_some hf, (r.matchesWord_iff w).mp (by simpa using List.find?_some hf), hb⟩

/-- Unknown words match no row (R99). -/
theorem decode_eq_none_iff (w : Word) : decode w = none ↔ ∀ r ∈ decodeTable, w &&& r.mask ≠ r.pattern := by
  simp [decode, Row.matchesWord]

end Sys2Proof
end

