-- ==== Sys2Proof/Laws/State.lean ====
section
/-!
SUPPORT. One lemma per field of State per update, so that no later proof unfolds a record update, and what registers
read after each update (10_state.md R20, R22).
-/
namespace Sys2Proof.Machine

@[simp] theorem State.setPc_x (s : State) (v : Word) : (s.setPc v).x = s.x := rfl
@[simp] theorem State.setPc_pc (s : State) (v : Word) : (s.setPc v).pc = v := rfl
@[simp] theorem State.setPc_mem (s : State) (v : Word) : (s.setPc v).mem = s.mem := rfl
@[simp] theorem State.setPc_status (s : State) (v : Word) : (s.setPc v).status = s.status := rfl
@[simp] theorem State.setPc_entry (s : State) (v : Word) : (s.setPc v).entry = s.entry := rfl
@[simp] theorem State.setPc_cfg (s : State) (v : Word) : (s.setPc v).cfg = s.cfg := rfl

@[simp] theorem State.setMem_x (s : State) (m : Memory) : (s.setMem m).x = s.x := rfl
@[simp] theorem State.setMem_pc (s : State) (m : Memory) : (s.setMem m).pc = s.pc := rfl
@[simp] theorem State.setMem_mem (s : State) (m : Memory) : (s.setMem m).mem = m := rfl
@[simp] theorem State.setMem_status (s : State) (m : Memory) : (s.setMem m).status = s.status := rfl
@[simp] theorem State.setMem_entry (s : State) (m : Memory) : (s.setMem m).entry = s.entry := rfl
@[simp] theorem State.setMem_cfg (s : State) (m : Memory) : (s.setMem m).cfg = s.cfg := rfl

@[simp] theorem State.setStatus_x (s : State) (st : Status) : (s.setStatus st).x = s.x := rfl
@[simp] theorem State.setStatus_pc (s : State) (st : Status) : (s.setStatus st).pc = s.pc := rfl
@[simp] theorem State.setStatus_mem (s : State) (st : Status) : (s.setStatus st).mem = s.mem := rfl
@[simp] theorem State.setStatus_status (s : State) (st : Status) : (s.setStatus st).status = st := rfl
@[simp] theorem State.setStatus_entry (s : State) (st : Status) : (s.setStatus st).entry = s.entry := rfl
@[simp] theorem State.setStatus_cfg (s : State) (st : Status) : (s.setStatus st).cfg = s.cfg := rfl

@[simp] theorem State.setEntry_x (s : State) (v : Word) : (s.setEntry v).x = s.x := rfl
@[simp] theorem State.setEntry_pc (s : State) (v : Word) : (s.setEntry v).pc = s.pc := rfl
@[simp] theorem State.setEntry_mem (s : State) (v : Word) : (s.setEntry v).mem = s.mem := rfl
@[simp] theorem State.setEntry_status (s : State) (v : Word) : (s.setEntry v).status = s.status := rfl
@[simp] theorem State.setEntry_entry (s : State) (v : Word) : (s.setEntry v).entry = v := rfl
@[simp] theorem State.setEntry_cfg (s : State) (v : Word) : (s.setEntry v).cfg = s.cfg := rfl

@[simp] theorem State.writeReg_pc (s : State) (r : Reg) (v : Word) : (s.writeReg r v).pc = s.pc := by
  unfold State.writeReg; split <;> rfl

@[simp] theorem State.writeReg_mem (s : State) (r : Reg) (v : Word) : (s.writeReg r v).mem = s.mem := by
  unfold State.writeReg; split <;> rfl

@[simp] theorem State.writeReg_status (s : State) (r : Reg) (v : Word) : (s.writeReg r v).status = s.status := by
  unfold State.writeReg; split <;> rfl

@[simp] theorem State.writeReg_entry (s : State) (r : Reg) (v : Word) : (s.writeReg r v).entry = s.entry := by
  unfold State.writeReg; split <;> rfl

@[simp] theorem State.writeReg_cfg (s : State) (r : Reg) (v : Word) : (s.writeReg r v).cfg = s.cfg := by
  unfold State.writeReg; split <;> rfl

@[simp] theorem State.readReg_setPc (s : State) (v : Word) (r : Reg) : (s.setPc v).readReg r = s.readReg r := rfl
@[simp] theorem State.readReg_setMem (s : State) (m : Memory) (r : Reg) : (s.setMem m).readReg r = s.readReg r := rfl
@[simp] theorem State.readReg_setStatus (s : State) (st : Status) (r : Reg) : (s.setStatus st).readReg r = s.readReg r := rfl
@[simp] theorem State.readReg_setEntry (s : State) (v : Word) (r : Reg) : (s.setEntry v).readReg r = s.readReg r := rfl

/-- x0 reads 0 in every state (R22). -/
@[simp] theorem State.readReg_zero (s : State) : s.readReg 0#5 = 0#32 := rfl

/-- A write to x0 is discarded (R22). -/
@[simp] theorem State.writeReg_zero (s : State) (v : Word) : s.writeReg 0#5 v = s := rfl

theorem regIndex_inj {r q : Reg} (hr : r ≠ 0) (hq : q ≠ 0) (h : (regIndex r).val = (regIndex q).val) : r = q := by
  have hr' : r.toNat ≠ 0 := fun e => hr (BitVec.eq_of_toNat_eq e)
  have hq' : q.toNat ≠ 0 := fun e => hq (BitVec.eq_of_toNat_eq e)
  simp only [regIndex] at h
  exact BitVec.eq_of_toNat_eq (by omega)

theorem State.readReg_writeReg_same (s : State) {r : Reg} (v : Word) (h : r ≠ 0) : (s.writeReg r v).readReg r = v := by
  rw [State.readReg, if_neg h, State.writeReg, if_neg h, Vector.get_eq_getElem]
  exact Vector.getElem_set_self _

theorem State.readReg_writeReg_other (s : State) {r q : Reg} (v : Word) (h : q ≠ r) :
    (s.writeReg r v).readReg q = s.readReg q := by
  unfold State.writeReg
  split
  · rfl
  · next hr =>
    unfold State.readReg
    split
    · rfl
    · next hq =>
      have hne : (regIndex r).val ≠ (regIndex q).val := fun e => h (regIndex_inj hq hr e.symm)
      simp only [Vector.get_eq_getElem]
      exact Vector.getElem_set_ne _ _ hne

/-- Every register after `x[r] <- v` (R22). -/
theorem State.readReg_writeReg (s : State) (r q : Reg) (v : Word) :
    (s.writeReg r v).readReg q = if q = r ∧ r ≠ 0 then v else s.readReg q := by
  by_cases h : q = r
  · subst h
    by_cases hz : q = 0
    · rw [if_neg (by simp [hz]), hz]; rfl
    · rw [if_pos ⟨rfl, hz⟩, State.readReg_writeReg_same _ _ hz]
  · simp [h, State.readReg_writeReg_other]

/-- Every register of the reset state reads 0 (R39, R40). -/
@[simp] theorem State.readReg_resetWith (c : Config) (r : Reg) : (State.resetWith c).readReg r = 0 := by
  simp [State.readReg, State.resetWith, Vector.get_eq_getElem]

@[simp] theorem State.resetWith_pc (c : Config) : (State.resetWith c).pc = 0 := rfl
@[simp] theorem State.resetWith_mem (c : Config) : (State.resetWith c).mem = initialMemory c := rfl
@[simp] theorem State.resetWith_status (c : Config) : (State.resetWith c).status = .running := rfl
@[simp] theorem State.resetWith_entry (c : Config) : (State.resetWith c).entry = 0 := rfl
@[simp] theorem State.resetWith_cfg (c : Config) : (State.resetWith c).cfg = c := rfl

end Sys2Proof.Machine
end

