-- ==== Sys2Proof/Laws/Memory.lean ====
section
/-!
SUPPORT. The laws of the memory operations: a read after a write (20_memory.md R61, R66), and that every operation keeps
the canonical form and the window.
-/
namespace Sys2Proof.Machine

@[simp] theorem Memory.read_nil (a : Nat) : Memory.read [] a = 0 := rfl

theorem Memory.read_cons (c : Host.Cell) (m : Memory) (a : Nat) :
    Memory.read (c :: m) a = if a = c.1 then c.2 else Memory.read m a := rfl

/-- An address below every listed one reads as unlisted. -/
theorem Memory.read_eq_zero_of_lt {m : Memory} {a : Nat} (h : ∀ c ∈ m, a < c.1) : m.read a = 0 := by
  induction m with
  | nil => rfl
  | cons c m ih =>
    have hc := h c (by simp)
    rw [Memory.read_cons, if_neg (by omega)]
    exact ih fun d hd => h d (by simp [hd])

theorem Memory.wf_nil : Memory.wf [] := ⟨List.Pairwise.nil, fun c hc => by cases hc⟩

theorem Memory.wf_tail {c : Host.Cell} {m : Memory} (h : Memory.wf (c :: m)) : Memory.wf m :=
  ⟨(List.pairwise_cons.mp h.1).2, fun d hd => h.2 d (by simp [hd])⟩

/-- Every cell of the memory after a write is the written one or an old one. -/
theorem Memory.mem_write {m : Memory} {a : Nat} {b : Byte} {d : Host.Cell} (h : d ∈ m.write a b) :
    (d = (a, b) ∧ b ≠ Memory.unlisted) ∨ d ∈ m := by
  induction m with
  | nil =>
    simp only [Memory.write] at h
    split at h
    · simp at h
    · next hb => exact .inl ⟨by simpa using h, hb⟩
  | cons c m ih =>
    simp only [Memory.write] at h
    split at h
    · split at h
      · exact .inr h
      · next hb =>
        rcases List.mem_cons.mp h with rfl | h
        · exact .inl ⟨rfl, hb⟩
        · exact .inr h
    · split at h
      · split at h
        · exact .inr (List.mem_cons_of_mem _ h)
        · next hb =>
          rcases List.mem_cons.mp h with rfl | h
          · exact .inl ⟨rfl, hb⟩
          · exact .inr (List.mem_cons_of_mem _ h)
      · rcases List.mem_cons.mp h with rfl | h
        · exact .inr (by simp)
        · exact (ih h).imp id (List.mem_cons_of_mem _)

/-- A write of one byte keeps the canonical form. -/
theorem Memory.write_wf {m : Memory} (h : Memory.wf m) (a : Nat) (b : Byte) : Memory.wf (m.write a b) := by
  refine ⟨?_, fun d hd => ?_⟩
  · induction m with
    | nil => simp only [Memory.write]; split <;> simp
    | cons c m ih =>
      have hp := List.pairwise_cons.mp h.1
      simp only [Memory.write]
      split
      · split
        · exact h.1
        · next hlt _ =>
          refine List.pairwise_cons.mpr ⟨fun d hd => ?_, h.1⟩
          rcases List.mem_cons.mp hd with rfl | hd
          · exact hlt
          · exact Nat.lt_trans hlt (hp.1 d hd)
      · split
        · split
          · exact hp.2
          · next heq _ => exact List.pairwise_cons.mpr ⟨fun d hd => heq ▸ hp.1 d hd, hp.2⟩
        · refine List.pairwise_cons.mpr ⟨fun d hd => ?_, ih (Memory.wf_tail h)⟩
          rcases Memory.mem_write hd with ⟨rfl, -⟩ | hd
          · simp only; omega
          · exact hp.1 d hd
  · rcases Memory.mem_write hd with ⟨rfl, hb⟩ | hd
    · exact hb
    · exact h.2 d hd

/-- A write leaves every other byte alone. -/
theorem Memory.read_write_other (m : Memory) {a a' : Nat} (b : Byte) (h : a' ≠ a) :
    (m.write a b).read a' = m.read a' := by
  induction m with
  | nil => simp only [Memory.write]; split <;> simp [Memory.read_cons, h]
  | cons c m ih =>
    simp only [Memory.write]
    split
    · split
      · rfl
      · rw [Memory.read_cons, if_neg h]
    · split
      · next heq =>
        have hc : a' ≠ c.1 := heq ▸ h
        split
        · rw [Memory.read_cons, if_neg hc]
        · rw [Memory.read_cons, if_neg h, Memory.read_cons, if_neg hc]
      · rw [Memory.read_cons, Memory.read_cons, ih]

/-- A byte reads back what was last written to it. -/
theorem Memory.read_write_same {m : Memory} (h : Memory.wf m) (a : Nat) (b : Byte) : (m.write a b).read a = b := by
  induction m with
  | nil => simp only [Memory.write]; split <;> simp_all [Memory.read_cons, Memory.unlisted]
  | cons c m ih =>
    have hp := List.pairwise_cons.mp h.1
    simp only [Memory.write]
    split
    · next hlt =>
      split
      · next hb =>
        rw [hb]
        refine Memory.read_eq_zero_of_lt fun d hd => ?_
        rcases List.mem_cons.mp hd with rfl | hd
        · exact hlt
        · exact Nat.lt_trans hlt (hp.1 d hd)
      · rw [Memory.read_cons, if_pos rfl]
    · split
      · next heq =>
        split
        · next hb => rw [hb]; exact Memory.read_eq_zero_of_lt fun d hd => heq ▸ hp.1 d hd
        · rw [Memory.read_cons, if_pos rfl]
      · next hne => rw [Memory.read_cons, if_neg hne]; exact ih (Memory.wf_tail h)

/-- A write of several bytes keeps the canonical form. -/
theorem Memory.writeLE_wf {m : Memory} (h : Memory.wf m) (a n : Nat) (v : Word) : Memory.wf (m.writeLE a n v) := by
  induction n generalizing m a v with
  | zero => exact h
  | succ n ih => exact ih (Memory.write_wf h a _) _ _

/-- A write of several bytes leaves every byte outside them alone. -/
theorem Memory.read_writeLE_other (m : Memory) {a n a' : Nat} (v : Word) (h : a' < a ∨ a + n ≤ a') :
    (m.writeLE a n v).read a' = m.read a' := by
  induction n generalizing m a v with
  | zero => rfl
  | succ n ih =>
    rw [Memory.writeLE, ih _ _ (by omega), Memory.read_write_other _ _ (by omega)]

/-- Byte `i` of the written bytes reads back byte `i` of the value (R56). -/
theorem Memory.read_writeLE_same {m : Memory} (h : Memory.wf m) (a n : Nat) (v : Word) {i : Nat} (hi : i < n) :
    (m.writeLE a n v).read (a + i) = v.extractLsb' (8 * i) 8 := by
  induction n generalizing m a v i with
  | zero => omega
  | succ n ih =>
    rw [Memory.writeLE]
    cases i with
    | zero =>
      rw [Memory.read_writeLE_other _ _ (by omega), Nat.add_zero, Memory.read_write_same h]
      ext j hj
      simp
    | succ i =>
      rw [show a + (i + 1) = a + 1 + i by omega, ih (Memory.write_wf h a _) _ _ (by omega)]
      ext j hj
      simp
      congr 1
      omega

theorem Memory.mem_writeLE {m : Memory} {a n : Nat} {v : Word} {d : Host.Cell} (h : d ∈ m.writeLE a n v) :
    (a ≤ d.1 ∧ d.1 < a + n) ∨ d ∈ m := by
  induction n generalizing m a v with
  | zero => exact .inr h
  | succ n ih =>
    rcases ih h with hd | hd
    · exact .inl (by omega)
    · rcases Memory.mem_write hd with ⟨rfl, -⟩ | hd
      · exact .inl (by simp only; omega)
      · exact .inr hd

/-- The segment write keeps the canonical form (R63). -/
theorem Memory.writeBytes_wf {m : Memory} (h : Memory.wf m) (a : Nat) (bs : List Byte) :
    Memory.wf (m.writeBytes a bs) := by
  induction bs generalizing m a with
  | nil => exact h
  | cons b bs ih => exact ih (Memory.write_wf h a b) _

/-- The bounds check says that all the bytes lie in the window (R52). -/
theorem inBounds_iff (c : Config) (addr : Word) (n : Nat) : inBounds c addr n = true ↔ InWindow c addr.toNat n := by
  simp only [inBounds, InWindow, decide_eq_true_eq]
  omega

theorem inBounds_eq_false_iff (c : Config) (addr : Word) (n : Nat) :
    inBounds c addr n = false ↔ ¬ InWindow c addr.toNat n := by
  rw [← inBounds_iff, Bool.not_eq_true]

/-- What MemRead answers in bounds (R55). -/
theorem memRead_of_inWindow {s : State} {addr : Word} {n : Nat} (h : InWindow s.cfg addr.toNat n) :
    memRead s addr n = some (s.mem.readLE addr.toNat n) := by
  simp [memRead, (inBounds_iff _ _ _).mpr h]

/-- What MemRead answers out of bounds (R55). -/
theorem memRead_of_not_inWindow {s : State} {addr : Word} {n : Nat} (h : ¬ InWindow s.cfg addr.toNat n) :
    memRead s addr n = none := by
  simp [memRead, (inBounds_eq_false_iff _ _ _).mpr h]

/-- What MemWrite answers in bounds (R56). -/
theorem memWrite_of_inWindow {s : State} {addr : Word} {n : Nat} (v : Word) (h : InWindow s.cfg addr.toNat n) :
    memWrite s addr n v = some (s.setMem (s.mem.writeLE addr.toNat n v)) := by
  simp [memWrite, (inBounds_iff _ _ _).mpr h]

/-- What MemWrite answers out of bounds (R56). -/
theorem memWrite_of_not_inWindow {s : State} {addr : Word} {n : Nat} (v : Word)
    (h : ¬ InWindow s.cfg addr.toNat n) : memWrite s addr n v = none := by
  simp [memWrite, (inBounds_eq_false_iff _ _ _).mpr h]

/-- A byte at offset `off` of the initial window is `MEM_INIT(off)` (R13, R310). -/
theorem read_initialMemory (c : Config) (off : Nat) :
    (initialMemory c).read (c.memBase + off) = Memory.read c.memInit off := by
  unfold initialMemory
  induction c.memInit with
  | nil => rfl
  | cons d m ih =>
    rw [List.map_cons, Memory.read_cons, Memory.read_cons, ih]
    by_cases h : off = d.1 <;> simp [h]

theorem initialMemory_wf {c : Config} (h : Memory.wf c.memInit) : Memory.wf (initialMemory c) := by
  refine ⟨?_, fun d hd => ?_⟩
  · exact List.pairwise_map.mpr (h.1.imp fun {a b} hab => by simp only; omega)
  · obtain ⟨e, he, rfl⟩ := List.mem_map.mp hd
    exact h.2 e he

end Sys2Proof.Machine
end

