-- ==== Sys2Proof/Laws/Exec.lean ====
section
/-!
SUPPORT. What each shared operation can do, and, from that, everything the execute phase can do (40_execution_cycle.md
R122): an instruction always answers a next state, in one of four ways.
-/
namespace Sys2Proof.Machine

/-! ### The shared operations -/

@[simp] theorem raise_eq (kind : FatalKind) (word : Option Word) (s : State) :
    raise kind word s = s.setStatus (.fatal { kind := kind, pc := s.pc, word := word }) := rfl

@[simp] theorem halt_eq (st : Status) (s : State) : halt st s = s.setStatus st := rfl

theorem continueWith_writesReg (rd : Reg) (v target : Word) (s : State) :
    WritesReg s (continueWith rd v target s) rd v target where
  dest h := State.readReg_writeReg_same s v h
  zero := rfl
  regs r h := State.readReg_writeReg_other s v h
  pc := rfl
  mem a := by simp [continueWith]
  status := by simp [continueWith]
  entry := by simp [continueWith]
  cfg := by simp [continueWith]

theorem setPc_setsPc (s : State) (target : Word) : SetsPc s (s.setPc target) target where
  regs _ := rfl
  pc := rfl
  mem _ := rfl
  status := rfl
  entry := rfl
  cfg := rfl

theorem setStatus_setsStatus (s : State) (st : Status) : SetsStatus s (s.setStatus st) st where
  regs _ := rfl
  pc := rfl
  mem _ := rfl
  status := rfl
  entry := rfl
  cfg := rfl

theorem writeLE_stores {s : State} (h : Memory.wf s.mem) (a n : Nat) (v : Word) :
    Stores s ((s.setMem (s.mem.writeLE a n v)).setPc (nextPc s)) a n v where
  stored _ hi := Memory.read_writeLE_same h a n v hi
  others _ hb := Memory.read_writeLE_other s.mem v hb
  regs _ := rfl
  pc := rfl
  status := rfl
  entry := rfl
  cfg := rfl

/-- A load in bounds (R231 to R235). -/
theorem loadWith_of_inWindow {i : Instr} {n : Nat} {ext : Word → Word} {rd rs1 : Reg} {imm : BitVec 12} {s : State}
    (h : InWindow s.cfg (loadAddress rs1 imm s).toNat n) :
    loadWith i n ext rd rs1 imm s =
      .next (continueWith rd (ext (BitVec.ofNat 32 (s.mem.readLE (loadAddress rs1 imm s).toNat n))) (nextPc s) s) := by
  simp only [loadWith, memRead_of_inWindow h, writeAndAdvance]

/-- A load out of bounds (R283). -/
theorem loadWith_of_not_inWindow {i : Instr} {n : Nat} {ext : Word → Word} {rd rs1 : Reg} {imm : BitVec 12}
    {s : State} (h : ¬ InWindow s.cfg (loadAddress rs1 imm s).toNat n) :
    loadWith i n ext rd rs1 imm s =
      .next (s.setStatus (outOfBoundsStatus .load (loadAddress rs1 imm s) s.pc (some (encode i)))) := by
  simp only [loadWith, memRead_of_not_inWindow h, raise_eq, outOfBoundsStatus]

/-- A store in bounds (R236 to R238). -/
theorem storeWith_of_inWindow {i : Instr} {n : Nat} {rs1 rs2 : Reg} {imm : BitVec 12} {s : State}
    (h : InWindow s.cfg (storeAddress rs1 imm s).toNat n) :
    storeWith i n rs1 rs2 imm s =
      .next ((s.setMem (s.mem.writeLE (storeAddress rs1 imm s).toNat n (s.readReg rs2))).setPc (nextPc s)) := by
  simp only [storeWith, memWrite_of_inWindow _ h]

/-- A store out of bounds (R283). -/
theorem storeWith_of_not_inWindow {i : Instr} {n : Nat} {rs1 rs2 : Reg} {imm : BitVec 12} {s : State}
    (h : ¬ InWindow s.cfg (storeAddress rs1 imm s).toNat n) :
    storeWith i n rs1 rs2 imm s =
      .next (s.setStatus (outOfBoundsStatus .store (storeAddress rs1 imm s) s.pc (some (encode i)))) := by
  simp only [storeWith, memWrite_of_not_inWindow _ h, raise_eq, outOfBoundsStatus]

/-! ### The execute phase -/

/-- Why an instruction ends the run, and with which status (R250 to R253, R283). -/
inductive EndCause (s : State) : Instr → Status → Prop where
  | loadOut {i : Instr} {a : Word} {n : Nat} (h : loadOf i s = some (a, n)) (hb : ¬ InWindow s.cfg a.toNat n) :
      EndCause s i (outOfBoundsStatus .load a s.pc (some (encode i)))
  | storeOut {i : Instr} {a : Word} {n : Nat} (h : storeOf i s = some (a, n)) (hb : ¬ InWindow s.cfg a.toNat n) :
      EndCause s i (outOfBoundsStatus .store a s.pc (some (encode i)))
  | exitSuccess (h : s.readReg 17 = 93) (h0 : s.readReg 10 = 0) : EndCause s .ecall .haltedSuccess
  | exitFailure (h : s.readReg 17 = 93) (h0 : s.readReg 10 ≠ 0) :
      EndCause s .ecall (.haltedFailure (s.readReg s.cfg.failCodeReg))
  | unsupportedCall (h : s.readReg 17 ≠ 93) :
      EndCause s .ecall (.fatal { kind := .unsupportedEnvironmentCall, pc := s.pc, word := some 0x00000073 })
  | breakpoint : EndCause s .ebreak (.fatal { kind := .breakpoint, pc := s.pc, word := some 0x00100073 })

/-- Everything an instruction can do (R122): write its register and continue, continue alone, store in bounds and
continue, or end the run with only the status changed. -/
inductive ExecEnd (i : Instr) (s : State) : State → Prop where
  | writes {rd : Reg} (v target : Word) (hd : destOf i = some rd) (hs : storeOf i s = none)
      (hc : isControl i = false → target = nextPc s)
      (hl : ∀ a n, loadOf i s = some (a, n) → InWindow s.cfg a.toNat n) : ExecEnd i s (continueWith rd v target s)
  | continues (target : Word) (hs : storeOf i s = none) (hl : loadOf i s = none)
      (hc : isControl i = false → target = nextPc s) : ExecEnd i s (s.setPc target)
  | stores {a : Word} {n : Nat} (v : Word) (hs : storeOf i s = some (a, n)) (hl : loadOf i s = none)
      (hb : InWindow s.cfg a.toNat n) :
      ExecEnd i s ((s.setMem (s.mem.writeLE a.toNat n v)).setPc (nextPc s))
  | ends {st : Status} (h : EndCause s i st) : ExecEnd i s (s.setStatus st)

theorem loadWith_end {i : Instr} {n : Nat} (ext : Word → Word) {rd rs1 : Reg} {imm : BitVec 12} {s : State}
    (hd : destOf i = some rd) (hs : storeOf i s = none) (hl : loadOf i s = some (loadAddress rs1 imm s, n)) :
    ∃ t, loadWith i n ext rd rs1 imm s = .next t ∧ ExecEnd i s t := by
  by_cases h : InWindow s.cfg (loadAddress rs1 imm s).toNat n
  · refine ⟨_, loadWith_of_inWindow h, .writes _ _ hd hs (fun _ => rfl) fun a m ham => ?_⟩
    rw [hl] at ham
    cases ham
    exact h
  · exact ⟨_, loadWith_of_not_inWindow h, .ends (.loadOut hl h)⟩

theorem storeWith_end {i : Instr} {n : Nat} {rs1 rs2 : Reg} {imm : BitVec 12} {s : State}
    (hs : storeOf i s = some (storeAddress rs1 imm s, n)) (hl : loadOf i s = none) :
    ∃ t, storeWith i n rs1 rs2 imm s = .next t ∧ ExecEnd i s t := by
  by_cases h : InWindow s.cfg (storeAddress rs1 imm s).toNat n
  · exact ⟨_, storeWith_of_inWindow h, .stores _ hs hl h⟩
  · exact ⟨_, storeWith_of_not_inWindow h, .ends (.storeOut hs h)⟩

theorem ecall_end (s : State) : ∃ t, execEcall s = .next t ∧ ExecEnd .ecall s t := by
  unfold execEcall
  by_cases h : s.readReg Config.exitNumReg = Config.exitNum
  · by_cases h0 : s.readReg Config.statusReg = 0
    · rw [if_pos h, if_pos h0]
      exact ⟨_, rfl, .ends (.exitSuccess h h0)⟩
    · rw [if_pos h, if_neg h0]
      exact ⟨_, rfl, .ends (.exitFailure h h0)⟩
  · rw [if_neg h]
    exact ⟨_, rfl, .ends (.unsupportedCall h)⟩

/-- Every instruction, in every state, answers a next state, in one of the four ways of `ExecEnd`. -/
theorem exec_end (i : Instr) (s : State) : ∃ t, exec i s = .next t ∧ ExecEnd i s t := by
  cases i
  case lb => exact loadWith_end _ rfl rfl rfl
  case lh => exact loadWith_end _ rfl rfl rfl
  case lw => exact loadWith_end _ rfl rfl rfl
  case lbu => exact loadWith_end _ rfl rfl rfl
  case lhu => exact loadWith_end _ rfl rfl rfl
  case sb => exact storeWith_end rfl rfl
  case sh => exact storeWith_end rfl rfl
  case sw => exact storeWith_end rfl rfl
  case ecall => exact ecall_end s
  case ebreak => exact ⟨_, rfl, .ends .breakpoint⟩
  case jal | jalr => exact ⟨_, rfl, .writes _ _ rfl rfl nofun nofun⟩
  case beq | bne | blt | bge | bltu | bgeu => exact ⟨_, rfl, .continues _ rfl rfl nofun⟩
  all_goals first
    | exact ⟨_, rfl, .writes _ _ rfl rfl (fun _ => rfl) nofun⟩
    | exact ⟨_, rfl, .continues _ rfl rfl (fun _ => rfl)⟩

/-- What a next state of the execute phase is (R122). -/
theorem exec_cases {i : Instr} {s t : State} (h : exec i s = .next t) : ExecEnd i s t := by
  obtain ⟨u, hu, he⟩ := exec_end i s
  rw [h] at hu
  cases hu
  exact he

/-! ### The step -/

theorem step_of_not_running {s : State} (h : s.status ≠ .running) : step s = .fault .notRunning := by
  unfold step
  cases hs : s.status <;> first | rfl | exact absurd hs h

/-- The three ends of a running step: a failed fetch, an unknown word, or the instruction's own effect (R122, R290). -/
theorem step_running {s : State} (h : s.status = .running) :
    (fetchWord s = none ∧ step s = .next (s.setStatus (outOfBoundsStatus .fetch s.pc s.pc none))) ∨
    (∃ w, fetchWord s = some w ∧ decode w = none ∧
      step s = .next (s.setStatus (.fatal { kind := .unknownInstruction, pc := s.pc, word := some w }))) ∨
    (∃ w i, fetchWord s = some w ∧ decode w = some i ∧ step s = exec i s) := by
  unfold step
  rw [h]
  cases hf : fetchWord s with
  | none => exact .inl ⟨rfl, rfl⟩
  | some w =>
    cases hd : decode w with
    | none => exact .inr (.inl ⟨w, rfl, hd, by simp only [hd, raise_eq]⟩)
    | some i => exact .inr (.inr ⟨w, i, rfl, hd, by simp only [hd]⟩)

theorem fetchWord_of_inWindow {s : State} (h : InWindow s.cfg s.pc.toNat 4) :
    fetchWord s = some (BitVec.ofNat 32 (s.mem.readLE s.pc.toNat 4)) := by
  simp only [fetchWord, memRead_of_inWindow h, Option.map_some]

theorem fetchWord_of_not_inWindow {s : State} (h : ¬ InWindow s.cfg s.pc.toNat 4) : fetchWord s = none := by
  simp only [fetchWord, memRead_of_not_inWindow h, Option.map_none]

/-- A step of a running state always ends in a next state (R127). -/
theorem step_total {s : State} (h : s.status = .running) : ∃ t, step s = .next t := by
  rcases step_running h with ⟨-, e⟩ | ⟨w, -, -, e⟩ | ⟨w, i, -, -, e⟩
  · exact ⟨_, e⟩
  · exact ⟨_, e⟩
  · obtain ⟨t, ht, -⟩ := exec_end i s
    exact ⟨t, e.trans ht⟩

end Sys2Proof.Machine
end

