-- ==== Sys2Proof/Laws/Driver.lean ====
section
/-!
SUPPORT. What the host's operations do (40_execution_cycle.md R129 to R142), each said once.
-/
namespace Sys2Proof.Machine

/-! ### Bytes written and read -/

/-- A segment write leaves every byte outside it alone (R63). -/
theorem Memory.read_writeBytes_other (m : Memory) (bs : List Byte) {a b : Nat} (h : b < a ∨ a + bs.length ≤ b) :
    (m.writeBytes a bs).read b = m.read b := by
  induction bs generalizing m a with
  | nil => rfl
  | cons c bs ih =>
    rw [List.length_cons] at h
    rw [Memory.writeBytes, ih _ (by omega), Memory.read_write_other _ _ (by omega)]

/-- A segment write puts each byte of the payload in its place (R63). -/
theorem Memory.read_writeBytes_same {m : Memory} (hm : Memory.wf m) (a : Nat) {bs : List Byte} {i : Nat}
    (h : i < bs.length) : (m.writeBytes a bs).read (a + i) = bs[i] := by
  induction bs generalizing m a i with
  | nil => simp at h
  | cons c bs ih =>
    rw [Memory.writeBytes]
    cases i with
    | zero =>
      rw [Memory.read_writeBytes_other _ _ (by omega)]
      exact Memory.read_write_same hm _ _
    | succ i =>
      rw [show a + (i + 1) = a + 1 + i by omega, ih (Memory.write_wf hm a c) _ (by simpa using h)]
      rfl

/-- Every cell after a segment write lies in the segment or is an old one. -/
theorem Memory.mem_writeBytes {m : Memory} {a : Nat} {bs : List Byte} {d : Host.Cell} (h : d ∈ m.writeBytes a bs) :
    (a ≤ d.1 ∧ d.1 < a + bs.length) ∨ d ∈ m := by
  induction bs generalizing m a with
  | nil => exact .inr h
  | cons b bs ih =>
    rw [List.length_cons]
    rcases ih h with hd | hd
    · exact .inl (by omega)
    · rcases Memory.mem_write hd with ⟨rfl, -⟩ | hd
      · exact .inl (by simp only; omega)
      · exact .inr hd

theorem Memory.length_readBytes (m : Memory) (a n : Nat) : (m.readBytes a n).length = n := by
  induction n generalizing a with
  | zero => rfl
  | succ n ih => rw [Memory.readBytes, List.length_cons, ih]

/-- The bytes read, each at its place (R141). -/
theorem Memory.getElem_readBytes (m : Memory) (a n : Nat) {i : Nat} (h : i < (m.readBytes a n).length) :
    (m.readBytes a n)[i] = m.read (a + i) := by
  induction n generalizing a i with
  | zero => simp [Memory.readBytes] at h
  | succ n ih =>
    cases i with
    | zero => rfl
    | succ i =>
      simp only [Memory.readBytes, List.getElem_cons_succ]
      rw [ih, show a + 1 + i = a + (i + 1) by omega]

/-! ### Steps and runs -/

theorem afterStep_of_next {s t : State} (h : step s = .next t) : afterStep s = t := by simp only [afterStep, h]

/-- A terminal status stands for a result (R132). -/
theorem resultOf_eq_none_iff (st : Status) : resultOf st = none ↔ st = .running := by cases st <;> simp [resultOf]

/-- The record of a step exists exactly when the step does (R121, R126). -/
theorem stepRecord_eq (s : State) : stepRecord s = if s.status = .running then some (runningRecord s) else none := by
  unfold stepRecord
  cases s.status <;> simp

/-- One more step of the host's run of a machine. -/
theorem core_run_succ {s t : State} (k : Nat) (h : step s = .next t) :
    Host.Core.run Sys2Proof.core (k + 1) s = Host.Core.run Sys2Proof.core k t := by
  have h' : Sys2Proof.core.step s = .next t := h
  have e := Host.Core.run.eq_2 Sys2Proof.core s k
  rw [h'] at e
  exact e

/-- A terminal status ends continue_run() at once (R130). -/
theorem continueRun_terminal {s : State} {r : RunResult} (h : resultOf s.status = some r) (stops : List Bool) :
    continueRun stops s = (some r, s) := by
  cases stops <;> simp [continueRun, h]

/-- The stop flag ends continue_run() with the status still Running (R130). -/
theorem continueRun_stop {s : State} (h : s.status = .running) (rest : List Bool) :
    continueRun (true :: rest) s = (some .stopped, s) := by
  simp [continueRun, h, resultOf]

/-- Otherwise continue_run() takes one step and goes on (R130). -/
theorem continueRun_step {s t : State} (h : s.status = .running) (ht : step s = .next t) (rest : List Bool) :
    continueRun (false :: rest) s = continueRun rest t := by
  simp [continueRun, h, resultOf, afterStep_of_next ht]

end Sys2Proof.Machine
end

