-- ==== Sys2Proof/Laws/Operands.lean ====
section
/-!
SUPPORT. What each operand form and each comparison is as integer arithmetic (00_scope.md R16, R17; 30_encoding.md R90 to
R95; 46_load_store.md R230), and the words that one, two and four bytes of memory make (20_memory.md R55).
-/
namespace Sys2Proof.Machine

/-! ### Immediates -/

/-- imm_I is the 12-bit field sign-extended (R90). -/
theorem immI_eq_signExtend (i : BitVec 12) : immI i = i.signExtend 32 := by
  simp [immI, sext]

/-- imm_S is the 12-bit field sign-extended (R91). -/
theorem immS_eq_signExtend (i : BitVec 12) : immS i = i.signExtend 32 := by
  simp [immS, sext]

/-- imm_B is the 13-bit offset sign-extended (R92). -/
theorem immB_eq_signExtend (i : BitVec 13) : immB i = i.signExtend 32 := by
  simp [immB, sext]

/-- imm_J is the 21-bit offset sign-extended (R94). -/
theorem immJ_eq_signExtend (i : BitVec 21) : immJ i = i.signExtend 32 := by
  simp [immJ, sext]

/-- imm_U is the 20-bit field times 4096 (R93). -/
theorem immU_toNat (i : BitVec 20) : (immU i).toNat = i.toNat * 4096 := by
  show (BitVec.append i 0#12).toNat = _
  rw [BitVec.append_eq, BitVec.toNat_append, Nat.shiftLeft_eq]
  exact Nat.or_zero _

/-- A field sign-extended to a word is the word of its signed value. -/
theorem signExtend_eq_ofInt {n : Nat} (i : BitVec n) : i.signExtend 32 = BitVec.ofInt 32 i.toInt := rfl

theorem immI_toInt (i : BitVec 12) : (immI i).toInt = i.toInt := by
  rw [immI_eq_signExtend]
  exact BitVec.toInt_signExtend_of_le (by omega)

theorem immI_eq_ofInt (i : BitVec 12) : immI i = BitVec.ofInt 32 i.toInt := immI_eq_signExtend i

/-- The effective address of a load as integer arithmetic (R230). -/
theorem loadAddress_eq (rs1 : Reg) (imm : BitVec 12) (s : State) : loadAddress rs1 imm s = basePlus s rs1 imm := by
  rw [loadAddress, basePlus, BitVec.ofInt_add, BitVec.ofInt_toInt, immI_eq_ofInt]

/-- The effective address of a store as integer arithmetic (R230). -/
theorem storeAddress_eq (rs1 : Reg) (imm : BitVec 12) (s : State) : storeAddress rs1 imm s = basePlus s rs1 imm :=
  loadAddress_eq rs1 imm s

/-- A branch target as integer arithmetic (R216). -/
theorem branchTarget_eq (pc : Word) (off : BitVec 13) : pc + immB off = BitVec.ofInt 32 (pc.toNat + off.toInt) := by
  rw [BitVec.ofInt_add, immB_eq_signExtend, signExtend_eq_ofInt, BitVec.ofInt_natCast, BitVec.ofNat_toNat,
    BitVec.setWidth_eq]

/-- A JAL target as integer arithmetic (R160). -/
theorem jalTarget_eq (pc : Word) (off : BitVec 21) : pc + immJ off = BitVec.ofInt 32 (pc.toNat + off.toInt) := by
  rw [BitVec.ofInt_add, immJ_eq_signExtend, signExtend_eq_ofInt, BitVec.ofInt_natCast, BitVec.ofNat_toNat,
    BitVec.setWidth_eq]

/-! ### Comparisons and shifts -/

theorem ltSigned_iff (a b : Word) : ltSigned a b = true ↔ a.toInt < b.toInt := by simp [ltSigned]

theorem ltUnsigned_iff (a b : Word) : ltUnsigned a b = true ↔ a.toNat < b.toNat := by simp [ltUnsigned]

theorem oneIf_ltSigned (a b : Word) : oneIf (ltSigned a b) = if a.toInt < b.toInt then 1 else 0 := by
  simp [oneIf, ltSigned]

theorem oneIf_ltUnsigned (a b : Word) : oneIf (ltUnsigned a b) = if a.toNat < b.toNat then 1 else 0 := by
  simp [oneIf, ltUnsigned]

/-- A register shift uses the low five bits (R170). -/
theorem shiftAmount_eq (v : Word) : shiftAmount v = v.toNat % 32 := by
  rw [shiftAmount, BitVec.toNat_and]
  exact Nat.and_two_pow_sub_one_eq_mod _ 5

theorem shiftLeft_eq_ofNat (a : Word) (n : Nat) : a <<< n = BitVec.ofNat 32 (a.toNat * 2 ^ n) := by
  apply BitVec.eq_of_toNat_eq
  simp [Nat.shiftLeft_eq]

theorem ushiftRight_eq_ofNat (a : Word) (n : Nat) : a >>> n = BitVec.ofNat 32 (a.toNat / 2 ^ n) := by
  apply BitVec.eq_of_toNat_eq
  rw [BitVec.toNat_ushiftRight, Nat.shiftRight_eq_div_pow, BitVec.toNat_ofNat,
    Nat.mod_eq_of_lt ((Nat.div_le_self _ _).trans_lt a.isLt)]

/-- An arithmetic shift is the floor of the signed value divided by a power of two (R16). -/
theorem sshiftRight_eq_ofInt (a : Word) (n : Nat) : a.sshiftRight n = BitVec.ofInt 32 (a.toInt / 2 ^ n) := by
  rw [BitVec.sshiftRight_eq, Int.shiftRight_eq_div_pow]
  norm_cast

/-! ### The words that bytes make -/

/-- One byte above others, as a word (R55). -/
theorem toNat_append_byte {n : Nat} (hi : BitVec n) (lo : Byte) : (hi ++ lo).toNat = lo.toNat + 256 * hi.toNat := by
  have h := lo.isLt
  rw [BitVec.toNat_append, ← Nat.shiftLeft_add_eq_or_of_lt h, Nat.shiftLeft_eq]
  omega

theorem readLE_one (m : Memory) (a : Nat) : BitVec.ofNat 32 (m.readLE a 1) = (m.read a).setWidth 32 := by
  apply BitVec.eq_of_toNat_eq
  simp [Memory.readLE]

theorem readLE_two (m : Memory) (a : Nat) :
    BitVec.ofNat 32 (m.readLE a 2) = (m.read (a + 1) ++ m.read a).setWidth 32 := by
  apply BitVec.eq_of_toNat_eq
  rw [BitVec.toNat_setWidth, BitVec.toNat_ofNat, toNat_append_byte]
  rfl

theorem readLE_four (m : Memory) (a : Nat) :
    BitVec.ofNat 32 (m.readLE a 4) = m.read (a + 3) ++ m.read (a + 2) ++ m.read (a + 1) ++ m.read a := by
  apply BitVec.eq_of_toNat_eq
  have h := (m.read (a + 3) ++ m.read (a + 2) ++ m.read (a + 1) ++ m.read a).isLt
  rw [toNat_append_byte, toNat_append_byte, toNat_append_byte] at h ⊢
  exact Nat.mod_eq_of_lt h

end Sys2Proof.Machine
end

