-- ==== Sys2Proof/Laws/PerInstr.lean ====
section
/-!
SUPPORT. The family TableRow: of every instruction, that its encoded word is matched by a row of the decode table which
gives the instruction back, with every operand at every value an encoding admits (30_encoding.md R98).
-/
namespace Sys2Proof.Laws

/-- If the instruction has an encoding, a row of the table matches its word and builds the instruction from it. -/
def TableRow.Statement (i : Instr) : Prop :=
  i.wf = true → ∃ r ∈ decodeTable, encode i &&& r.mask = r.pattern ∧ r.build (encode i) = i

/-- SFENCE.VMA's mask also keeps `rd`, which is 0 (R257). -/
theorem encodeSfence_mask (rs1 rs2 : Reg) :
    encodeR 0b0001001 rs2 rs1 0b000 0 opSystem &&& 0xFE007FFF = 0x12000073 := by
  apply BitVec.eq_of_getLsbD_eq
  intro i hi
  interval_cases i <;> simp only [BitVec.getLsbD_and, encodeR_bit, opSystem] <;> simp

theorem TableRow.lui (rd : Reg) (imm : BitVec 20) : TableRow.Statement (.lui rd imm) := fun _ =>
  ⟨⟨"LUI", 0x0000007F, 0x00000037, fun w => .lui (rdField w) (immUField w)⟩,
    List.mem_of_getElem? (i := 0) rfl, (encodeU_mask _ _ _).trans (by decide), by simp only [encode, encodeU_rd, encodeU_imm]⟩

theorem TableRow.auipc (rd : Reg) (imm : BitVec 20) : TableRow.Statement (.auipc rd imm) := fun _ =>
  ⟨⟨"AUIPC", 0x0000007F, 0x00000017, fun w => .auipc (rdField w) (immUField w)⟩,
    List.mem_of_getElem? (i := 1) rfl, (encodeU_mask _ _ _).trans (by decide), by simp only [encode, encodeU_rd, encodeU_imm]⟩

theorem TableRow.jal (rd : Reg) (off : BitVec 21) : TableRow.Statement (.jal rd off) := fun h =>
  ⟨⟨"JAL", 0x0000007F, 0x0000006F, fun w => .jal (rdField w) (immJField w)⟩,
    List.mem_of_getElem? (i := 2) rfl, (encodeJ_mask _ _ _).trans (by decide), by simp only [encode, encodeJ_rd, encodeJ_off _ _ _ h]⟩

theorem TableRow.jalr (rd rs1 : Reg) (imm : BitVec 12) : TableRow.Statement (.jalr rd rs1 imm) := fun _ =>
  ⟨⟨"JALR", 0x0000707F, 0x00000067, fun w => .jalr (rdField w) (rs1Field w) (immIField w)⟩,
    List.mem_of_getElem? (i := 3) rfl, (encodeI_mask _ _ _ _ _).trans (by decide), by simp only [encode, encodeI_rd, encodeI_rs1, encodeI_imm]⟩

theorem TableRow.beq (rs1 rs2 : Reg) (off : BitVec 13) : TableRow.Statement (.beq rs1 rs2 off) := fun h =>
  ⟨⟨"BEQ", 0x0000707F, 0x00000063, fun w => .beq (rs1Field w) (rs2Field w) (immBField w)⟩,
    List.mem_of_getElem? (i := 4) rfl, (encodeB_mask _ _ _ _ _).trans (by decide), by simp only [encode, encodeB_rs1, encodeB_rs2, encodeB_off _ _ _ _ _ h]⟩

theorem TableRow.bne (rs1 rs2 : Reg) (off : BitVec 13) : TableRow.Statement (.bne rs1 rs2 off) := fun h =>
  ⟨⟨"BNE", 0x0000707F, 0x00001063, fun w => .bne (rs1Field w) (rs2Field w) (immBField w)⟩,
    List.mem_of_getElem? (i := 5) rfl, (encodeB_mask _ _ _ _ _).trans (by decide), by simp only [encode, encodeB_rs1, encodeB_rs2, encodeB_off _ _ _ _ _ h]⟩

theorem TableRow.blt (rs1 rs2 : Reg) (off : BitVec 13) : TableRow.Statement (.blt rs1 rs2 off) := fun h =>
  ⟨⟨"BLT", 0x0000707F, 0x00004063, fun w => .blt (rs1Field w) (rs2Field w) (immBField w)⟩,
    List.mem_of_getElem? (i := 6) rfl, (encodeB_mask _ _ _ _ _).trans (by decide), by simp only [encode, encodeB_rs1, encodeB_rs2, encodeB_off _ _ _ _ _ h]⟩

theorem TableRow.bge (rs1 rs2 : Reg) (off : BitVec 13) : TableRow.Statement (.bge rs1 rs2 off) := fun h =>
  ⟨⟨"BGE", 0x0000707F, 0x00005063, fun w => .bge (rs1Field w) (rs2Field w) (immBField w)⟩,
    List.mem_of_getElem? (i := 7) rfl, (encodeB_mask _ _ _ _ _).trans (by decide), by simp only [encode, encodeB_rs1, encodeB_rs2, encodeB_off _ _ _ _ _ h]⟩

theorem TableRow.bltu (rs1 rs2 : Reg) (off : BitVec 13) : TableRow.Statement (.bltu rs1 rs2 off) := fun h =>
  ⟨⟨"BLTU", 0x0000707F, 0x00006063, fun w => .bltu (rs1Field w) (rs2Field w) (immBField w)⟩,
    List.mem_of_getElem? (i := 8) rfl, (encodeB_mask _ _ _ _ _).trans (by decide), by simp only [encode, encodeB_rs1, encodeB_rs2, encodeB_off _ _ _ _ _ h]⟩

theorem TableRow.bgeu (rs1 rs2 : Reg) (off : BitVec 13) : TableRow.Statement (.bgeu rs1 rs2 off) := fun h =>
  ⟨⟨"BGEU", 0x0000707F, 0x00007063, fun w => .bgeu (rs1Field w) (rs2Field w) (immBField w)⟩,
    List.mem_of_getElem? (i := 9) rfl, (encodeB_mask _ _ _ _ _).trans (by decide), by simp only [encode, encodeB_rs1, encodeB_rs2, encodeB_off _ _ _ _ _ h]⟩

theorem TableRow.lb (rd rs1 : Reg) (imm : BitVec 12) : TableRow.Statement (.lb rd rs1 imm) := fun _ =>
  ⟨⟨"LB", 0x0000707F, 0x00000003, fun w => .lb (rdField w) (rs1Field w) (immIField w)⟩,
    List.mem_of_getElem? (i := 10) rfl, (encodeI_mask _ _ _ _ _).trans (by decide), by simp only [encode, encodeI_rd, encodeI_rs1, encodeI_imm]⟩

theorem TableRow.lh (rd rs1 : Reg) (imm : BitVec 12) : TableRow.Statement (.lh rd rs1 imm) := fun _ =>
  ⟨⟨"LH", 0x0000707F, 0x00001003, fun w => .lh (rdField w) (rs1Field w) (immIField w)⟩,
    List.mem_of_getElem? (i := 11) rfl, (encodeI_mask _ _ _ _ _).trans (by decide), by simp only [encode, encodeI_rd, encodeI_rs1, encodeI_imm]⟩

theorem TableRow.lw (rd rs1 : Reg) (imm : BitVec 12) : TableRow.Statement (.lw rd rs1 imm) := fun _ =>
  ⟨⟨"LW", 0x0000707F, 0x00002003, fun w => .lw (rdField w) (rs1Field w) (immIField w)⟩,
    List.mem_of_getElem? (i := 12) rfl, (encodeI_mask _ _ _ _ _).trans (by decide), by simp only [encode, encodeI_rd, encodeI_rs1, encodeI_imm]⟩

theorem TableRow.lbu (rd rs1 : Reg) (imm : BitVec 12) : TableRow.Statement (.lbu rd rs1 imm) := fun _ =>
  ⟨⟨"LBU", 0x0000707F, 0x00004003, fun w => .lbu (rdField w) (rs1Field w) (immIField w)⟩,
    List.mem_of_getElem? (i := 13) rfl, (encodeI_mask _ _ _ _ _).trans (by decide), by simp only [encode, encodeI_rd, encodeI_rs1, encodeI_imm]⟩

theorem TableRow.lhu (rd rs1 : Reg) (imm : BitVec 12) : TableRow.Statement (.lhu rd rs1 imm) := fun _ =>
  ⟨⟨"LHU", 0x0000707F, 0x00005003, fun w => .lhu (rdField w) (rs1Field w) (immIField w)⟩,
    List.mem_of_getElem? (i := 14) rfl, (encodeI_mask _ _ _ _ _).trans (by decide), by simp only [encode, encodeI_rd, encodeI_rs1, encodeI_imm]⟩

theorem TableRow.sb (rs1 rs2 : Reg) (imm : BitVec 12) : TableRow.Statement (.sb rs1 rs2 imm) := fun _ =>
  ⟨⟨"SB", 0x0000707F, 0x00000023, fun w => .sb (rs1Field w) (rs2Field w) (immSField w)⟩,
    List.mem_of_getElem? (i := 15) rfl, (encodeS_mask _ _ _ _ _).trans (by decide), by simp only [encode, encodeS_rs1, encodeS_rs2, encodeS_imm]⟩

theorem TableRow.sh (rs1 rs2 : Reg) (imm : BitVec 12) : TableRow.Statement (.sh rs1 rs2 imm) := fun _ =>
  ⟨⟨"SH", 0x0000707F, 0x00001023, fun w => .sh (rs1Field w) (rs2Field w) (immSField w)⟩,
    List.mem_of_getElem? (i := 16) rfl, (encodeS_mask _ _ _ _ _).trans (by decide), by simp only [encode, encodeS_rs1, encodeS_rs2, encodeS_imm]⟩

theorem TableRow.sw (rs1 rs2 : Reg) (imm : BitVec 12) : TableRow.Statement (.sw rs1 rs2 imm) := fun _ =>
  ⟨⟨"SW", 0x0000707F, 0x00002023, fun w => .sw (rs1Field w) (rs2Field w) (immSField w)⟩,
    List.mem_of_getElem? (i := 17) rfl, (encodeS_mask _ _ _ _ _).trans (by decide), by simp only [encode, encodeS_rs1, encodeS_rs2, encodeS_imm]⟩

theorem TableRow.addi (rd rs1 : Reg) (imm : BitVec 12) : TableRow.Statement (.addi rd rs1 imm) := fun _ =>
  ⟨⟨"ADDI", 0x0000707F, 0x00000013, fun w => .addi (rdField w) (rs1Field w) (immIField w)⟩,
    List.mem_of_getElem? (i := 18) rfl, (encodeI_mask _ _ _ _ _).trans (by decide), by simp only [encode, encodeI_rd, encodeI_rs1, encodeI_imm]⟩

theorem TableRow.slti (rd rs1 : Reg) (imm : BitVec 12) : TableRow.Statement (.slti rd rs1 imm) := fun _ =>
  ⟨⟨"SLTI", 0x0000707F, 0x00002013, fun w => .slti (rdField w) (rs1Field w) (immIField w)⟩,
    List.mem_of_getElem? (i := 19) rfl, (encodeI_mask _ _ _ _ _).trans (by decide), by simp only [encode, encodeI_rd, encodeI_rs1, encodeI_imm]⟩

theorem TableRow.sltiu (rd rs1 : Reg) (imm : BitVec 12) : TableRow.Statement (.sltiu rd rs1 imm) := fun _ =>
  ⟨⟨"SLTIU", 0x0000707F, 0x00003013, fun w => .sltiu (rdField w) (rs1Field w) (immIField w)⟩,
    List.mem_of_getElem? (i := 20) rfl, (encodeI_mask _ _ _ _ _).trans (by decide), by simp only [encode, encodeI_rd, encodeI_rs1, encodeI_imm]⟩

theorem TableRow.xori (rd rs1 : Reg) (imm : BitVec 12) : TableRow.Statement (.xori rd rs1 imm) := fun _ =>
  ⟨⟨"XORI", 0x0000707F, 0x00004013, fun w => .xori (rdField w) (rs1Field w) (immIField w)⟩,
    List.mem_of_getElem? (i := 21) rfl, (encodeI_mask _ _ _ _ _).trans (by decide), by simp only [encode, encodeI_rd, encodeI_rs1, encodeI_imm]⟩

theorem TableRow.ori (rd rs1 : Reg) (imm : BitVec 12) : TableRow.Statement (.ori rd rs1 imm) := fun _ =>
  ⟨⟨"ORI", 0x0000707F, 0x00006013, fun w => .ori (rdField w) (rs1Field w) (immIField w)⟩,
    List.mem_of_getElem? (i := 22) rfl, (encodeI_mask _ _ _ _ _).trans (by decide), by simp only [encode, encodeI_rd, encodeI_rs1, encodeI_imm]⟩

theorem TableRow.andi (rd rs1 : Reg) (imm : BitVec 12) : TableRow.Statement (.andi rd rs1 imm) := fun _ =>
  ⟨⟨"ANDI", 0x0000707F, 0x00007013, fun w => .andi (rdField w) (rs1Field w) (immIField w)⟩,
    List.mem_of_getElem? (i := 23) rfl, (encodeI_mask _ _ _ _ _).trans (by decide), by simp only [encode, encodeI_rd, encodeI_rs1, encodeI_imm]⟩

theorem TableRow.slli (rd rs1 : Reg) (shamt : BitVec 5) : TableRow.Statement (.slli rd rs1 shamt) := fun _ =>
  ⟨⟨"SLLI", 0xFE00707F, 0x00001013, fun w => .slli (rdField w) (rs1Field w) (shamtField w)⟩,
    List.mem_of_getElem? (i := 24) rfl, (encodeR_mask _ _ _ _ _ _).trans (by decide), by simp only [encode, encodeR_rd, encodeR_rs1, encodeR_shamt]⟩

theorem TableRow.srli (rd rs1 : Reg) (shamt : BitVec 5) : TableRow.Statement (.srli rd rs1 shamt) := fun _ =>
  ⟨⟨"SRLI", 0xFE00707F, 0x00005013, fun w => .srli (rdField w) (rs1Field w) (shamtField w)⟩,
    List.mem_of_getElem? (i := 25) rfl, (encodeR_mask _ _ _ _ _ _).trans (by decide), by simp only [encode, encodeR_rd, encodeR_rs1, encodeR_shamt]⟩

theorem TableRow.srai (rd rs1 : Reg) (shamt : BitVec 5) : TableRow.Statement (.srai rd rs1 shamt) := fun _ =>
  ⟨⟨"SRAI", 0xFE00707F, 0x40005013, fun w => .srai (rdField w) (rs1Field w) (shamtField w)⟩,
    List.mem_of_getElem? (i := 26) rfl, (encodeR_mask _ _ _ _ _ _).trans (by decide), by simp only [encode, encodeR_rd, encodeR_rs1, encodeR_shamt]⟩

theorem TableRow.add (rd rs1 rs2 : Reg) : TableRow.Statement (.add rd rs1 rs2) := fun _ =>
  ⟨⟨"ADD", 0xFE00707F, 0x00000033, fun w => .add (rdField w) (rs1Field w) (rs2Field w)⟩,
    List.mem_of_getElem? (i := 27) rfl, (encodeR_mask _ _ _ _ _ _).trans (by decide), by simp only [encode, encodeR_rd, encodeR_rs1, encodeR_rs2]⟩

theorem TableRow.sub (rd rs1 rs2 : Reg) : TableRow.Statement (.sub rd rs1 rs2) := fun _ =>
  ⟨⟨"SUB", 0xFE00707F, 0x40000033, fun w => .sub (rdField w) (rs1Field w) (rs2Field w)⟩,
    List.mem_of_getElem? (i := 28) rfl, (encodeR_mask _ _ _ _ _ _).trans (by decide), by simp only [encode, encodeR_rd, encodeR_rs1, encodeR_rs2]⟩

theorem TableRow.sll (rd rs1 rs2 : Reg) : TableRow.Statement (.sll rd rs1 rs2) := fun _ =>
  ⟨⟨"SLL", 0xFE00707F, 0x00001033, fun w => .sll (rdField w) (rs1Field w) (rs2Field w)⟩,
    List.mem_of_getElem? (i := 29) rfl, (encodeR_mask _ _ _ _ _ _).trans (by decide), by simp only [encode, encodeR_rd, encodeR_rs1, encodeR_rs2]⟩

theorem TableRow.slt (rd rs1 rs2 : Reg) : TableRow.Statement (.slt rd rs1 rs2) := fun _ =>
  ⟨⟨"SLT", 0xFE00707F, 0x00002033, fun w => .slt (rdField w) (rs1Field w) (rs2Field w)⟩,
    List.mem_of_getElem? (i := 30) rfl, (encodeR_mask _ _ _ _ _ _).trans (by decide), by simp only [encode, encodeR_rd, encodeR_rs1, encodeR_rs2]⟩

theorem TableRow.sltu (rd rs1 rs2 : Reg) : TableRow.Statement (.sltu rd rs1 rs2) := fun _ =>
  ⟨⟨"SLTU", 0xFE00707F, 0x00003033, fun w => .sltu (rdField w) (rs1Field w) (rs2Field w)⟩,
    List.mem_of_getElem? (i := 31) rfl, (encodeR_mask _ _ _ _ _ _).trans (by decide), by simp only [encode, encodeR_rd, encodeR_rs1, encodeR_rs2]⟩

theorem TableRow.xor (rd rs1 rs2 : Reg) : TableRow.Statement (.xor rd rs1 rs2) := fun _ =>
  ⟨⟨"XOR", 0xFE00707F, 0x00004033, fun w => .xor (rdField w) (rs1Field w) (rs2Field w)⟩,
    List.mem_of_getElem? (i := 32) rfl, (encodeR_mask _ _ _ _ _ _).trans (by decide), by simp only [encode, encodeR_rd, encodeR_rs1, encodeR_rs2]⟩

theorem TableRow.srl (rd rs1 rs2 : Reg) : TableRow.Statement (.srl rd rs1 rs2) := fun _ =>
  ⟨⟨"SRL", 0xFE00707F, 0x00005033, fun w => .srl (rdField w) (rs1Field w) (rs2Field w)⟩,
    List.mem_of_getElem? (i := 33) rfl, (encodeR_mask _ _ _ _ _ _).trans (by decide), by simp only [encode, encodeR_rd, encodeR_rs1, encodeR_rs2]⟩

theorem TableRow.sra (rd rs1 rs2 : Reg) : TableRow.Statement (.sra rd rs1 rs2) := fun _ =>
  ⟨⟨"SRA", 0xFE00707F, 0x40005033, fun w => .sra (rdField w) (rs1Field w) (rs2Field w)⟩,
    List.mem_of_getElem? (i := 34) rfl, (encodeR_mask _ _ _ _ _ _).trans (by decide), by simp only [encode, encodeR_rd, encodeR_rs1, encodeR_rs2]⟩

theorem TableRow.or (rd rs1 rs2 : Reg) : TableRow.Statement (.or rd rs1 rs2) := fun _ =>
  ⟨⟨"OR", 0xFE00707F, 0x00006033, fun w => .or (rdField w) (rs1Field w) (rs2Field w)⟩,
    List.mem_of_getElem? (i := 35) rfl, (encodeR_mask _ _ _ _ _ _).trans (by decide), by simp only [encode, encodeR_rd, encodeR_rs1, encodeR_rs2]⟩

theorem TableRow.and (rd rs1 rs2 : Reg) : TableRow.Statement (.and rd rs1 rs2) := fun _ =>
  ⟨⟨"AND", 0xFE00707F, 0x00007033, fun w => .and (rdField w) (rs1Field w) (rs2Field w)⟩,
    List.mem_of_getElem? (i := 36) rfl, (encodeR_mask _ _ _ _ _ _).trans (by decide), by simp only [encode, encodeR_rd, encodeR_rs1, encodeR_rs2]⟩

theorem TableRow.fence (fm pred succ : BitVec 4) (rs1 rd : Reg) : TableRow.Statement (.fence fm pred succ rs1 rd) := fun _ =>
  ⟨⟨"FENCE", 0x0000707F, 0x0000000F, fun w => .fence (bits w 31 28) (bits w 27 24) (bits w 23 20) (rs1Field w) (rdField w)⟩,
    List.mem_of_getElem? (i := 37) rfl, (encodeI_mask _ _ _ _ _).trans (by decide), by simp only [encode, encodeI_fm, encodeI_pred, encodeI_succ, encodeI_rs1, encodeI_rd]⟩

theorem TableRow.fenceI (imm : BitVec 12) (rs1 rd : Reg) : TableRow.Statement (.fenceI imm rs1 rd) := fun _ =>
  ⟨⟨"FENCE.I", 0x0000707F, 0x0000100F, fun w => .fenceI (immIField w) (rs1Field w) (rdField w)⟩,
    List.mem_of_getElem? (i := 38) rfl, (encodeI_mask _ _ _ _ _).trans (by decide), by simp only [encode, encodeI_imm, encodeI_rs1, encodeI_rd]⟩

theorem TableRow.ecall : TableRow.Statement .ecall := fun _ =>
  ⟨⟨"ECALL", 0xFFFFFFFF, 0x00000073, fun _ => .ecall⟩,
    List.mem_of_getElem? (i := 39) rfl, by decide, rfl⟩

theorem TableRow.ebreak : TableRow.Statement .ebreak := fun _ =>
  ⟨⟨"EBREAK", 0xFFFFFFFF, 0x00100073, fun _ => .ebreak⟩,
    List.mem_of_getElem? (i := 40) rfl, by decide, rfl⟩

theorem TableRow.mret : TableRow.Statement .mret := fun _ =>
  ⟨⟨"MRET", 0xFFFFFFFF, 0x30200073, fun _ => .mret⟩,
    List.mem_of_getElem? (i := 41) rfl, by decide, rfl⟩

theorem TableRow.sret : TableRow.Statement .sret := fun _ =>
  ⟨⟨"SRET", 0xFFFFFFFF, 0x10200073, fun _ => .sret⟩,
    List.mem_of_getElem? (i := 42) rfl, by decide, rfl⟩

theorem TableRow.wfi : TableRow.Statement .wfi := fun _ =>
  ⟨⟨"WFI", 0xFFFFFFFF, 0x10500073, fun _ => .wfi⟩,
    List.mem_of_getElem? (i := 43) rfl, by decide, rfl⟩

theorem TableRow.sfenceVma (rs1 rs2 : Reg) : TableRow.Statement (.sfenceVma rs1 rs2) := fun _ =>
  ⟨⟨"SFENCE.VMA", 0xFE007FFF, 0x12000073, fun w => .sfenceVma (rs1Field w) (rs2Field w)⟩,
    List.mem_of_getElem? (i := 44) rfl, encodeSfence_mask _ _, by simp only [encode, encodeR_rs1, encodeR_rs2]⟩

theorem TableRow.csrrw (rd : Reg) (csr : BitVec 12) (rs1 : Reg) : TableRow.Statement (.csrrw rd csr rs1) := fun _ =>
  ⟨⟨"CSRRW", 0x0000707F, 0x00001073, fun w => .csrrw (rdField w) (immIField w) (rs1Field w)⟩,
    List.mem_of_getElem? (i := 45) rfl, (encodeI_mask _ _ _ _ _).trans (by decide), by simp only [encode, encodeI_rd, encodeI_imm, encodeI_rs1]⟩

theorem TableRow.csrrs (rd : Reg) (csr : BitVec 12) (rs1 : Reg) : TableRow.Statement (.csrrs rd csr rs1) := fun _ =>
  ⟨⟨"CSRRS", 0x0000707F, 0x00002073, fun w => .csrrs (rdField w) (immIField w) (rs1Field w)⟩,
    List.mem_of_getElem? (i := 46) rfl, (encodeI_mask _ _ _ _ _).trans (by decide), by simp only [encode, encodeI_rd, encodeI_imm, encodeI_rs1]⟩

theorem TableRow.csrrc (rd : Reg) (csr : BitVec 12) (rs1 : Reg) : TableRow.Statement (.csrrc rd csr rs1) := fun _ =>
  ⟨⟨"CSRRC", 0x0000707F, 0x00003073, fun w => .csrrc (rdField w) (immIField w) (rs1Field w)⟩,
    List.mem_of_getElem? (i := 47) rfl, (encodeI_mask _ _ _ _ _).trans (by decide), by simp only [encode, encodeI_rd, encodeI_imm, encodeI_rs1]⟩

theorem TableRow.csrrwi (rd : Reg) (csr : BitVec 12) (uimm : BitVec 5) : TableRow.Statement (.csrrwi rd csr uimm) := fun _ =>
  ⟨⟨"CSRRWI", 0x0000707F, 0x00005073, fun w => .csrrwi (rdField w) (immIField w) (rs1Field w)⟩,
    List.mem_of_getElem? (i := 48) rfl, (encodeI_mask _ _ _ _ _).trans (by decide), by simp only [encode, encodeI_rd, encodeI_imm, encodeI_rs1]⟩

theorem TableRow.csrrsi (rd : Reg) (csr : BitVec 12) (uimm : BitVec 5) : TableRow.Statement (.csrrsi rd csr uimm) := fun _ =>
  ⟨⟨"CSRRSI", 0x0000707F, 0x00006073, fun w => .csrrsi (rdField w) (immIField w) (rs1Field w)⟩,
    List.mem_of_getElem? (i := 49) rfl, (encodeI_mask _ _ _ _ _).trans (by decide), by simp only [encode, encodeI_rd, encodeI_imm, encodeI_rs1]⟩

theorem TableRow.csrrci (rd : Reg) (csr : BitVec 12) (uimm : BitVec 5) : TableRow.Statement (.csrrci rd csr uimm) := fun _ =>
  ⟨⟨"CSRRCI", 0x0000707F, 0x00007073, fun w => .csrrci (rdField w) (immIField w) (rs1Field w)⟩,
    List.mem_of_getElem? (i := 50) rfl, (encodeI_mask _ _ _ _ _).trans (by decide), by simp only [encode, encodeI_rd, encodeI_imm, encodeI_rs1]⟩

/-- Every instruction has its row. -/
theorem TableRow.all (i : Instr) : TableRow.Statement i := by
  cases i
  case lui => apply TableRow.lui
  case auipc => apply TableRow.auipc
  case jal => apply TableRow.jal
  case jalr => apply TableRow.jalr
  case beq => apply TableRow.beq
  case bne => apply TableRow.bne
  case blt => apply TableRow.blt
  case bge => apply TableRow.bge
  case bltu => apply TableRow.bltu
  case bgeu => apply TableRow.bgeu
  case lb => apply TableRow.lb
  case lh => apply TableRow.lh
  case lw => apply TableRow.lw
  case lbu => apply TableRow.lbu
  case lhu => apply TableRow.lhu
  case sb => apply TableRow.sb
  case sh => apply TableRow.sh
  case sw => apply TableRow.sw
  case addi => apply TableRow.addi
  case slti => apply TableRow.slti
  case sltiu => apply TableRow.sltiu
  case xori => apply TableRow.xori
  case ori => apply TableRow.ori
  case andi => apply TableRow.andi
  case slli => apply TableRow.slli
  case srli => apply TableRow.srli
  case srai => apply TableRow.srai
  case add => apply TableRow.add
  case sub => apply TableRow.sub
  case sll => apply TableRow.sll
  case slt => apply TableRow.slt
  case sltu => apply TableRow.sltu
  case xor => apply TableRow.xor
  case srl => apply TableRow.srl
  case sra => apply TableRow.sra
  case or => apply TableRow.or
  case and => apply TableRow.and
  case fence => apply TableRow.fence
  case fenceI => apply TableRow.fenceI
  case ecall => exact TableRow.ecall
  case ebreak => exact TableRow.ebreak
  case mret => exact TableRow.mret
  case sret => exact TableRow.sret
  case wfi => exact TableRow.wfi
  case sfenceVma => apply TableRow.sfenceVma
  case csrrw => apply TableRow.csrrw
  case csrrs => apply TableRow.csrrs
  case csrrc => apply TableRow.csrrc
  case csrrwi => apply TableRow.csrrwi
  case csrrsi => apply TableRow.csrrsi
  case csrrci => apply TableRow.csrrci

end Sys2Proof.Laws
end

