-- ==== Sys2Proof/Tests/Slice0.lean ====
section
/-!
SUPPORT. Tests of the model against the spec. Every expected result is taken from spec/: the words from the encodings and
examples of 41_upper_immediate.md to 48_misc_mem.md, the single steps from the vectors V1 to V124 of 95_test_vectors.md
(the vector's number is in the theorem's name) or from the examples of the rules, W1 to W10 from the source's own
examples. The witnesses at the end show, for each statement of Certificates/Slice0/Obligations.lean that has
hypotheses, a concrete state and operands that meet them.
-/
namespace Sys2Proof.Tests.Slice0
open Sys2Proof Sys2Proof.Machine

/-! ### Helpers -/

/-- The state with bytes loaded at an address. -/
def place (s : State) (seg : Word × List Byte) : State :=
  match loadSegment seg.1 seg.2 s with
  | .ok t => t
  | .error _ => s

/-- The start of a vector (95_test_vectors.md section 2): reset, the word at `pc`, other bytes, registers, then `pc`. -/
def start (pc word : Word) (regs : List (Reg × Word)) (segs : List (Word × List Byte) := []) : State :=
  (regs.foldl (fun s r => s.writeReg r.1 r.2) (segs.foldl place (place State.reset (pc, bytesOfWord word)))).setPc pc

/-- One register, `pc` and the status after one step. -/
def after (s : State) (r : Reg) : Option (Word × Word × Status) :=
  match step s with
  | .next t => some (t.readReg r, t.pc, t.status)
  | .fault _ => none
  | .refused _ => none

/-- The bytes at an address, and `pc`, after one step. -/
def bytesAfter (s : State) (a : Word) (n : Nat) : Option (List Byte × Word) :=
  match step s with
  | .next t => some (t.mem.readBytes a.toNat n, t.pc)
  | .fault _ => none
  | .refused _ => none

/-- A step answers a next state (a fact that `decide` can evaluate). -/
def steps (s : State) : Bool :=
  match step s with
  | .next _ => true
  | .fault _ => false
  | .refused _ => false

/-! ### Well-formedness: an ill-formed term for each check -/

theorem test_wf_refuses_odd_jal : (Instr.jal 1 3).wf = false := by decide

theorem test_wf_refuses_odd_beq : (Instr.beq 5 6 1).wf = false := by decide

theorem test_wf_refuses_odd_bne : (Instr.bne 5 6 1).wf = false := by decide

theorem test_wf_refuses_odd_blt : (Instr.blt 5 6 1).wf = false := by decide

theorem test_wf_refuses_odd_bge : (Instr.bge 5 6 1).wf = false := by decide

theorem test_wf_refuses_odd_bltu : (Instr.bltu 5 6 1).wf = false := by decide

theorem test_wf_refuses_odd_bgeu : (Instr.bgeu 5 6 1).wf = false := by decide

theorem test_wf_accepts_even_offsets : (Instr.jal 1 (-4)).wf = true ∧ (Instr.bgeu 5 6 (-4096)).wf = true := by decide

/-! ### Decoding: a word of the spec for every constructor -/

/-- 41_upper_immediate.md, examples. -/
theorem test_decode_upper :
    decode 0x123452B7 = some (.lui 5 0x12345) ∧
    decode 0x00001317 = some (.auipc 6 1) := by decide

/-- 42_jumps.md, examples; V7, V9, V10. -/
theorem test_decode_jump :
    decode 0x010000EF = some (.jal 1 16) ∧
    decode 0xFFDFF0EF = some (.jal 1 (-4)) ∧
    decode 0x7FFFF2EF = some (.jal 5 1048574) ∧
    decode 0x001002EF = some (.jal 5 2048) ∧
    decode 0x003280E7 = some (.jalr 1 5 3) := by decide

/-- 45_branches.md, examples; V67 to V69. -/
theorem test_decode_branch :
    decode 0x00628463 = some (.beq 5 6 8) ∧
    decode 0x80000063 = some (.beq 0 0 (-4096)) ∧
    decode 0x7E000FE3 = some (.beq 0 0 4094) ∧
    decode 0x00629463 = some (.bne 5 6 8) ∧
    decode 0x0062C463 = some (.blt 5 6 8) ∧
    decode 0x0062D463 = some (.bge 5 6 8) ∧
    decode 0x0062E463 = some (.bltu 5 6 8) ∧
    decode 0x0062F463 = some (.bgeu 5 6 8) := by decide

/-- 46_load_store.md, examples. -/
theorem test_decode_load_store :
    decode 0x00030283 = some (.lb 5 6 0) ∧
    decode 0x00031283 = some (.lh 5 6 0) ∧
    decode 0x00032283 = some (.lw 5 6 0) ∧
    decode 0x00034283 = some (.lbu 5 6 0) ∧
    decode 0x00035283 = some (.lhu 5 6 0) ∧
    decode 0x00530023 = some (.sb 6 5 0) ∧
    decode 0x00531023 = some (.sh 6 5 0) ∧
    decode 0xFE532E23 = some (.sw 6 5 (-4)) := by decide

/-- 43_alu_immediate.md, examples. -/
theorem test_decode_alu_immediate :
    decode 0x00A00293 = some (.addi 5 0 10) ∧
    decode 0xFFF32293 = some (.slti 5 6 (-1)) ∧
    decode 0xFFF33293 = some (.sltiu 5 6 (-1)) ∧
    decode 0xFFF34293 = some (.xori 5 6 (-1)) ∧
    decode 0x0F036293 = some (.ori 5 6 0xF0) ∧
    decode 0x0FF37293 = some (.andi 5 6 0xFF) ∧
    decode 0x00431293 = some (.slli 5 6 4) ∧
    decode 0x00435293 = some (.srli 5 6 4) ∧
    decode 0x40435293 = some (.srai 5 6 4) := by decide

/-- 44_alu_register.md, examples. -/
theorem test_decode_alu_register :
    decode 0x007302B3 = some (.add 5 6 7) ∧
    decode 0x407302B3 = some (.sub 5 6 7) ∧
    decode 0x007312B3 = some (.sll 5 6 7) ∧
    decode 0x007322B3 = some (.slt 5 6 7) ∧
    decode 0x007332B3 = some (.sltu 5 6 7) ∧
    decode 0x007342B3 = some (.xor 5 6 7) ∧
    decode 0x007352B3 = some (.srl 5 6 7) ∧
    decode 0x407352B3 = some (.sra 5 6 7) ∧
    decode 0x007362B3 = some (.or 5 6 7) ∧
    decode 0x007372B3 = some (.and 5 6 7) := by decide

/-- 48_misc_mem.md, examples; V115, V117. -/
theorem test_decode_fence :
    decode 0x0FF0000F = some (.fence 0 0xF 0xF 0 0) ∧
    decode 0x8330000F = some (.fence 8 3 3 0 0) ∧
    decode 0x0FF3028F = some (.fence 0 0xF 0xF 6 5) ∧
    decode 0x0000100F = some (.fenceI 0 0 0) := by decide

/-- 47_system.md, examples; V107, V109, V110. -/
theorem test_decode_system :
    decode 0x00000073 = some .ecall ∧
    decode 0x00100073 = some .ebreak ∧
    decode 0x30200073 = some .mret ∧
    decode 0x10200073 = some .sret ∧
    decode 0x10500073 = some .wfi ∧
    decode 0x12628073 = some (.sfenceVma 5 6) ∧
    decode 0x300312F3 = some (.csrrw 5 0x300 6) ∧
    decode 0xC00022F3 = some (.csrrs 5 0xC00 0) ∧
    decode 0x300332F3 = some (.csrrc 5 0x300 6) ∧
    decode 0x3000D2F3 = some (.csrrwi 5 0x300 1) ∧
    decode 0x3000E2F3 = some (.csrrsi 5 0x300 1) ∧
    decode 0x3000F2F3 = some (.csrrci 5 0x300 1) := by decide

/-- Words that are no instruction: V16, V43, V44, V64, V65, V80, V96, V97, V111 to V113, V118, V123, V124. -/
theorem test_decode_unknown :
    [0x000312E7, 0x02431293, 0x60435293, 0x027302B3, 0x407342B3, 0x0062A463, 0x00033283, 0x00533023, 0x00200073, 0x000000F3, 0x00004073, 0x0000200F, 0x00000000, 0xFFFFFFFF].all
      (fun w => decode w = none) = true := by decide

/-- The word of ADDI written out field by field from R84, R97 and R98: imm 10, rs1 0, funct3 000, rd 5, OP-IMM. -/
theorem test_decode_addi_by_fields :
    decode (10#12 ++ 0#5 ++ 0b000#3 ++ 5#5 ++ 0b0010011#7) = some (.addi 5 0 10) := by decide

/-- The word of SW written out from R85, R97 and R98: imm[11:5], rs2 5, rs1 6, funct3 010, imm[4:0], STORE; imm = -4. -/
theorem test_decode_sw_by_fields :
    decode (0b1111111#7 ++ 5#5 ++ 6#5 ++ 0b010#3 ++ 0b11100#5 ++ 0b0100011#7) = some (.sw 6 5 (-4)) := by decide

/-- The host's own form of a word: bytes in memory order, then decoded. -/
theorem test_decode_table_word :
    decodeTableWord 32 0x00A00293 = some (.addi 5 0 10) ∧ decodeTableWord 32 0 = none := by decide

/-! ### Single steps -/

/-- V1 (R150): lui x5, 0xfffff. -/
theorem test_v1_lui :
    after (start 0x80000000 0xFFFFF2B7 []) 5 =
      some (0xFFFFF000, 0x80000004, .running) := by decide

/-- V5 (R151): auipc x5, 0x80000. -/
theorem test_v5_auipc :
    after (start 0x80000000 0x80000297 []) 5 =
      some (0x00000000, 0x80000004, .running) := by decide

/-- V4 (R151): auipc x5, 0. -/
theorem test_v4_auipc :
    after (start 0x80000000 0x00000297 []) 5 =
      some (0x80000000, 0x80000004, .running) := by decide

/-- V7 (R160): jal x1, -4. -/
theorem test_v7_jal :
    after (start 0x80000008 0xFFDFF0EF []) 1 =
      some (0x8000000C, 0x80000004, .running) := by decide

/-- V9 (R160): jal x5, 1048574. -/
theorem test_v9_jal :
    after (start 0x80000000 0x7FFFF2EF []) 5 =
      some (0x80000004, 0x800FFFFE, .running) := by decide

/-- V11 (R161): jalr x1, 0(x1). -/
theorem test_v11_jalr :
    after (start 0x80000000 0x000080E7 [(1, 0x80000100)]) 1 =
      some (0x80000004, 0x80000100, .running) := by decide

/-- V12 (R161): jalr x0, -1(x5). -/
theorem test_v12_jalr :
    after (start 0x80000000 0xFFF28067 [(5, 0x80000011)]) 0 =
      some (0x00000000, 0x80000010, .running) := by decide

/-- V66 (R210): beq x5, x6, 8. -/
theorem test_v66_beq :
    after (start 0x80000000 0x00628463 [(5, 0x00000001), (6, 0x00000002)]) 5 =
      some (0x00000001, 0x80000004, .running) := by decide

/-- V68 (R210): beq x0, x0, -4096. -/
theorem test_v68_beq : after (start 0x80001000 0x80000063 []) 5 =
      some (0, 0x80000000, .running) := by decide

/-- V70 (R211): bne x5, x6, 8. -/
theorem test_v70_bne :
    after (start 0x80000000 0x00629463 [(5, 0x00000003), (6, 0x00000003)]) 5 =
      some (0x00000003, 0x80000004, .running) := by decide

/-- V71 (R212): blt x5, x6, 8. -/
theorem test_v71_blt :
    after (start 0x80000000 0x0062C463 [(5, 0x00000001), (6, 0xFFFFFFFF)]) 5 =
      some (0x00000001, 0x80000004, .running) := by decide

/-- V72 (R212): blt x5, x6, 8. -/
theorem test_v72_blt :
    after (start 0x80000000 0x0062C463 [(5, 0x80000000), (6, 0x7FFFFFFF)]) 5 =
      some (0x80000000, 0x80000008, .running) := by decide

/-- V73 (R213): bge x5, x6, 8. -/
theorem test_v73_bge :
    after (start 0x80000000 0x0062D463 [(5, 0x00000007), (6, 0x00000007)]) 5 =
      some (0x00000007, 0x80000008, .running) := by decide

/-- V74 (R213): bge x5, x6, 8. -/
theorem test_v74_bge :
    after (start 0x80000000 0x0062D463 [(5, 0xFFFFFFFF), (6, 0x00000000)]) 5 =
      some (0xFFFFFFFF, 0x80000004, .running) := by decide

/-- V75 (R214): bltu x5, x6, 8. -/
theorem test_v75_bltu :
    after (start 0x80000000 0x0062E463 [(5, 0x00000001), (6, 0xFFFFFFFF)]) 5 =
      some (0x00000001, 0x80000008, .running) := by decide

/-- V76 (R214): bltu x5, x0, 8. -/
theorem test_v76_bltu :
    after (start 0x80000000 0x0002E463 [(5, 0x00000000)]) 5 =
      some (0x00000000, 0x80000004, .running) := by decide

/-- V77 (R215): bgeu x5, x6, 8. -/
theorem test_v77_bgeu :
    after (start 0x80000000 0x0062F463 [(5, 0xFFFFFFFF), (6, 0x00000001)]) 5 =
      some (0xFFFFFFFF, 0x80000008, .running) := by decide

/-- V78 (R215): bgeu x5, x0, 8. -/
theorem test_v78_bgeu :
    after (start 0x80000000 0x0002F463 [(5, 0x00000000)]) 5 =
      some (0x00000000, 0x80000008, .running) := by decide

/-- V87 (R231): lb x5, 1(x6). -/
theorem test_v87_lb :
    after (start 0x80000000 0x00130283 [(6, 0xFFFFFFFF)]) 5 =
      some (0x00000000, 0x80000000, .fatal { kind := .outOfBounds .load 0x00000000, pc := 0x80000000, word := some 0x00130283 }) := by decide

/-- V83 (R232): lh x5, 1(x6). -/
theorem test_v83_lh :
    after (start 0x80000000 0x00131283 [(6, 0x80001000)] [(0x80001000, [0x80, 0xFF, 0x34, 0x12])]) 5 =
      some (0x000034FF, 0x80000004, .running) := by decide

/-- V81 (R233): lw x5, 0(x6). -/
theorem test_v81_lw :
    after (start 0x80000000 0x00032283 [(6, 0x8000FFFC)] [(0x8000FFFC, [0x11, 0x22, 0x33, 0x44])]) 5 =
      some (0x44332211, 0x80000004, .running) := by decide

/-- V85 (R234): lbu x5, 3(x6). -/
theorem test_v85_lbu :
    after (start 0x80000000 0x00334283 [(6, 0x8000FFFC)] [(0x8000FFFC, [0x11, 0x22, 0x33, 0x44])]) 5 =
      some (0x00000044, 0x80000004, .running) := by decide

/-- V84 (R235): lhu x5, 1(x6). -/
theorem test_v84_lhu :
    after (start 0x80000000 0x00135283 [(6, 0x80001000)] [(0x80001000, [0x80, 0xFF, 0x34, 0x12])]) 5 =
      some (0x000034FF, 0x80000004, .running) := by decide

/-- V17 (R171): addi x5, x6, 1. -/
theorem test_v17_addi :
    after (start 0x80000000 0x00130293 [(6, 0x7FFFFFFF)]) 5 =
      some (0x80000000, 0x80000004, .running) := by decide

/-- V19 (R171): addi x5, x5, -2048. -/
theorem test_v19_addi :
    after (start 0x80000000 0x80028293 [(5, 0x00000800)]) 5 =
      some (0x00000000, 0x80000004, .running) := by decide

/-- V22 (R172): slti x5, x6, -2048. -/
theorem test_v22_slti :
    after (start 0x80000000 0x80032293 [(6, 0x80000000)]) 5 =
      some (0x00000001, 0x80000004, .running) := by decide

/-- V24 (R172): slti x5, x6, 5. -/
theorem test_v24_slti :
    after (start 0x80000000 0x00532293 [(6, 0x00000005)]) 5 =
      some (0x00000000, 0x80000004, .running) := by decide

/-- V28 (R173): sltiu x5, x6, -1. -/
theorem test_v28_sltiu :
    after (start 0x80000000 0xFFF33293 [(6, 0xFFFFFFFE)]) 5 =
      some (0x00000001, 0x80000004, .running) := by decide

/-- V29 (R173): sltiu x5, x6, -1. -/
theorem test_v29_sltiu :
    after (start 0x80000000 0xFFF33293 [(6, 0xFFFFFFFF)]) 5 =
      some (0x00000000, 0x80000004, .running) := by decide

/-- V31 (R174): xori x5, x6, -1. -/
theorem test_v31_xori :
    after (start 0x80000000 0xFFF34293 [(6, 0x00000000)]) 5 =
      some (0xFFFFFFFF, 0x80000004, .running) := by decide

/-- V32 (R174): xori x5, x6, 0x7ff. -/
theorem test_v32_xori :
    after (start 0x80000000 0x7FF34293 [(6, 0xFFFFFFFF)]) 5 =
      some (0xFFFFF800, 0x80000004, .running) := by decide

/-- V33 (R175): ori x5, x6, -2048. -/
theorem test_v33_ori :
    after (start 0x80000000 0x80036293 [(6, 0x00000001)]) 5 =
      some (0xFFFFF801, 0x80000004, .running) := by decide

/-- V34 (R176): andi x5, x6, -1. -/
theorem test_v34_andi :
    after (start 0x80000000 0xFFF37293 [(6, 0x89ABCDEF)]) 5 =
      some (0x89ABCDEF, 0x80000004, .running) := by decide

/-- V35 (R176): andi x5, x6, 0x7ff. -/
theorem test_v35_andi :
    after (start 0x80000000 0x7FF37293 [(6, 0xFFFFFFFF)]) 5 =
      some (0x000007FF, 0x80000004, .running) := by decide

/-- V36 (R177): slli x5, x6, 31. -/
theorem test_v36_slli :
    after (start 0x80000000 0x01F31293 [(6, 0x00000003)]) 5 =
      some (0x80000000, 0x80000004, .running) := by decide

/-- V37 (R177): slli x5, x6, 0. -/
theorem test_v37_slli :
    after (start 0x80000000 0x00031293 [(6, 0x89ABCDEF)]) 5 =
      some (0x89ABCDEF, 0x80000004, .running) := by decide

/-- V38 (R178): srli x5, x6, 31. -/
theorem test_v38_srli :
    after (start 0x80000000 0x01F35293 [(6, 0x80000000)]) 5 =
      some (0x00000001, 0x80000004, .running) := by decide

/-- V39 (R178): srli x5, x6, 0. -/
theorem test_v39_srli :
    after (start 0x80000000 0x00035293 [(6, 0x80000000)]) 5 =
      some (0x80000000, 0x80000004, .running) := by decide

/-- V40 (R179): srai x5, x6, 31. -/
theorem test_v40_srai :
    after (start 0x80000000 0x41F35293 [(6, 0x80000000)]) 5 =
      some (0xFFFFFFFF, 0x80000004, .running) := by decide

/-- V42 (R179): srai x5, x6, 1. -/
theorem test_v42_srai :
    after (start 0x80000000 0x40135293 [(6, 0xFFFFFFFF)]) 5 =
      some (0xFFFFFFFF, 0x80000004, .running) := by decide

/-- V45 (R190): add x5, x6, x7. -/
theorem test_v45_add :
    after (start 0x80000000 0x007302B3 [(6, 0x7FFFFFFF), (7, 0x00000001)]) 5 =
      some (0x80000000, 0x80000004, .running) := by decide

/-- V46 (R190): add x5, x5, x5. -/
theorem test_v46_add :
    after (start 0x80000000 0x005282B3 [(5, 0x80000000)]) 5 =
      some (0x00000000, 0x80000004, .running) := by decide

/-- V47 (R191): sub x5, x6, x7. -/
theorem test_v47_sub :
    after (start 0x80000000 0x407302B3 [(6, 0x80000000), (7, 0x00000001)]) 5 =
      some (0x7FFFFFFF, 0x80000004, .running) := by decide

/-- V48 (R191): sub x5, x0, x7. -/
theorem test_v48_sub :
    after (start 0x80000000 0x407002B3 [(7, 0x00000001)]) 5 =
      some (0xFFFFFFFF, 0x80000004, .running) := by decide

/-- V50 (R192): sll x5, x6, x7. -/
theorem test_v50_sll :
    after (start 0x80000000 0x007312B3 [(6, 0x00000001), (7, 0x00000020)]) 5 =
      some (0x00000001, 0x80000004, .running) := by decide

/-- V51 (R192): sll x5, x6, x7. -/
theorem test_v51_sll :
    after (start 0x80000000 0x007312B3 [(6, 0x00000001), (7, 0xFFFFFFFF)]) 5 =
      some (0x80000000, 0x80000004, .running) := by decide

/-- V52 (R193): slt x5, x6, x7. -/
theorem test_v52_slt :
    after (start 0x80000000 0x007322B3 [(6, 0x00000001), (7, 0xFFFFFFFF)]) 5 =
      some (0x00000000, 0x80000004, .running) := by decide

/-- V54 (R194): sltu x5, x0, x7. -/
theorem test_v54_sltu :
    after (start 0x80000000 0x007032B3 [(7, 0x00000010)]) 5 =
      some (0x00000001, 0x80000004, .running) := by decide

/-- V56 (R194): sltu x5, x6, x7. -/
theorem test_v56_sltu :
    after (start 0x80000000 0x007332B3 [(6, 0x00000001), (7, 0xFFFFFFFF)]) 5 =
      some (0x00000001, 0x80000004, .running) := by decide

/-- V57 (R195): xor x5, x6, x6. -/
theorem test_v57_xor :
    after (start 0x80000000 0x006342B3 [(6, 0xDEADBEEF)]) 5 =
      some (0x00000000, 0x80000004, .running) := by decide

/-- V58 (R196): srl x5, x6, x7. -/
theorem test_v58_srl :
    after (start 0x80000000 0x007352B3 [(6, 0x80000000), (7, 0x00000020)]) 5 =
      some (0x80000000, 0x80000004, .running) := by decide

/-- V59 (R196): srl x5, x6, x7. -/
theorem test_v59_srl :
    after (start 0x80000000 0x007352B3 [(6, 0x80000000), (7, 0x00000023)]) 5 =
      some (0x10000000, 0x80000004, .running) := by decide

/-- V60 (R197): sra x5, x6, x7. -/
theorem test_v60_sra :
    after (start 0x80000000 0x407352B3 [(6, 0x80000000), (7, 0x00000004)]) 5 =
      some (0xF8000000, 0x80000004, .running) := by decide

/-- V61 (R197): sra x5, x6, x7. -/
theorem test_v61_sra :
    after (start 0x80000000 0x407352B3 [(6, 0x40000000), (7, 0xFFFFFFFE)]) 5 =
      some (0x00000001, 0x80000004, .running) := by decide

/-- V62 (R198): or x5, x6, x0. -/
theorem test_v62_or :
    after (start 0x80000000 0x000362B3 [(6, 0x89ABCDEF)]) 5 =
      some (0x89ABCDEF, 0x80000004, .running) := by decide

/-- V63 (R199): and x5, x6, x0. -/
theorem test_v63_and :
    after (start 0x80000000 0x000372B3 [(6, 0x89ABCDEF)]) 5 =
      some (0x00000000, 0x80000004, .running) := by decide

/-- V101 (R251): ecall (FAIL_CODE_REG = 10). -/
theorem test_v101_ecall :
    after ({ start 0x80000000 0x00000073 [(17, 0x0000005D), (10, 0x00000007), (3, 0x00000005)] with cfg := { Config.standard with failCodeReg := 10 } }) 5 =
      some (0, 0x80000000, .haltedFailure 0x00000007) := by decide

/-- V102 (R252): ecall. -/
theorem test_v102_ecall :
    after (start 0x80000000 0x00000073 [(17, 0x00000040), (10, 0x00000001)]) 17 =
      some (0x00000040, 0x80000000, .fatal { kind := .unsupportedEnvironmentCall, pc := 0x80000000, word := some 0x00000073 }) := by decide

/-- V104 (R253): ebreak. -/
theorem test_v104_ebreak :
    after (start 0x80000000 0x00100073 [(5, 0x00000009)]) 5 =
      some (0x00000009, 0x80000000, .fatal { kind := .breakpoint, pc := 0x80000000, word := some 0x00100073 }) := by decide

/-- V105 (R254): mret. -/
theorem test_v105_mret : after (start 0x80000000 0x30200073 []) 5 =
      some (0, 0x80000004, .running) := by decide

/-- V106 (R256): wfi. -/
theorem test_v106_wfi : after (start 0x80000000 0x10500073 []) 5 =
      some (0, 0x80000004, .running) := by decide

/-- V107 (R257): sfence.vma x5, x6. -/
theorem test_v107_sfence_vma :
    after (start 0x80000000 0x12628073 []) 5 =
      some (0, 0x80000004, .running) := by decide

/-- V108 (R259): csrrw x5, mstatus, x6. -/
theorem test_v108_csrrw :
    after (start 0x80000000 0x300312F3 [(5, 0x00000011), (6, 0x00000022)]) 5 =
      some (0x00000011, 0x80000004, .running) := by decide

/-- V109 (R260): csrrs x5, 0xfff, x6. -/
theorem test_v109_csrrs :
    after (start 0x80000000 0xFFF322F3 [(5, 0x00000011), (6, 0x00000022)]) 5 =
      some (0x00000011, 0x80000004, .running) := by decide

/-- V110 (R264): csrrci x0, 0x000, 31. -/
theorem test_v110_csrrci :
    after (start 0x80000000 0x000FF073 []) 5 =
      some (0, 0x80000004, .running) := by decide

/-- V114 (R270): fence. -/
theorem test_v114_fence : after (start 0x80000000 0x0FF0000F []) 5 =
      some (0, 0x80000004, .running) := by decide

/-- V117 (R270): (FENCE with rd = 5, rs1 = 6). -/
theorem test_v117_fence :
    after (start 0x80000000 0x0FF3028F [(5, 0x00000003)]) 5 =
      some (0x00000003, 0x80000004, .running) := by decide

/-- V116 (R271): fence.i. -/
theorem test_v116_fence_i :
    after (start 0x80000000 0x0000100F []) 5 =
      some (0, 0x80000004, .running) := by decide

/-- V88 (R239): lw x0, 0(x6). -/
theorem test_v88_lw :
    after (start 0x80000000 0x00032003 [(6, 0x80010000)]) 0 =
      some (0x00000000, 0x80000000, .fatal { kind := .outOfBounds .load 0x80010000, pc := 0x80000000, word := some 0x00032003 }) := by decide

/-- V119 (R282): addi x5, x0, 1 at the last word. -/
theorem test_v119_addi :
    after (start 0x8000FFFC 0x00100293 []) 5 =
      some (0x00000001, 0x80010000, .running) := by decide

/-- V120 (R282): (fetch at MEM_BASE + MEM_SIZE - 3). -/
theorem test_v120_fetch :
    after (start 0x8000FFFD 0x00000000 []) 5 =
      some (0, 0x8000FFFD, .fatal { kind := .outOfBounds .fetch 0x8000FFFD, pc := 0x8000FFFD, word := none }) := by decide

/-- V121 (R282): (fetch below the window). -/
theorem test_v121_fetch :
    after (start 0x7FFFFFFC 0x00000000 []) 5 =
      some (0, 0x7FFFFFFC, .fatal { kind := .outOfBounds .fetch 0x7FFFFFFC, pc := 0x7FFFFFFC, word := none }) := by decide

/-- R52 with MEM_BASE = 0 and MEM_SIZE = 2^32, which R11 allows: `pc + 4` at 0xFFFFFFFC wraps to 0, which is in the window
(notes/assumptions/15.md). -/
theorem test_wrapped_pc_fetches_in_the_full_window :
    validConfig { Config.standard with memBase := 0, memSize := 2 ^ 32 } ∧
    inBounds { Config.standard with memBase := 0, memSize := 2 ^ 32 } (0xFFFFFFFC + 4) 4 = true := by decide

/-- V122 (R28): addi x5, x0, 1 at a pc with bit 1 set. -/
theorem test_v122_addi :
    after (start 0x80000002 0x00100293 []) 5 =
      some (0x00000001, 0x80000006, .running) := by decide

/-- V123 (R284): (all-zero word). -/
theorem test_v123_all_zero :
    after (start 0x80000000 0x00000000 []) 5 =
      some (0, 0x80000000, .fatal { kind := .unknownInstruction, pc := 0x80000000, word := some 0x00000000 }) := by decide

/-- V124 (R284): (all-ones word). -/
theorem test_v124_all_ones :
    after (start 0x80000000 0xFFFFFFFF []) 5 =
      some (0, 0x80000000, .fatal { kind := .unknownInstruction, pc := 0x80000000, word := some 0xFFFFFFFF }) := by decide

/-- V92 (R236): sb x5, 3(x6). -/
theorem test_v92_sb :
    bytesAfter (start 0x80000000 0x005301A3 [(5, 0xAABBCCDD), (6, 0x8000FFFC)] [(0x8000FFFC, [0x11, 0x22, 0x33, 0x44])]) 0x8000FFFC 4 =
      some ([0x11, 0x22, 0x33, 0xDD], 0x80000004) := by decide

/-- V94 (R236): sb x0, 0(x6). -/
theorem test_v94_sb :
    bytesAfter (start 0x80000000 0x00030023 [(6, 0x80001000)] [(0x80001000, [0x80, 0xFF, 0x34, 0x12])]) 0x80001000 4 =
      some ([0x00, 0xFF, 0x34, 0x12], 0x80000004) := by decide

/-- V91 (R237): sh x5, 3(x6). -/
theorem test_v91_sh :
    after (start 0x80000000 0x005311A3 [(5, 0xAABBCCDD), (6, 0x8000FFFC)] [(0x8000FFFC, [0x11, 0x22, 0x33, 0x44])]) 5 =
      some (0xAABBCCDD, 0x80000000, .fatal { kind := .outOfBounds .store 0x8000FFFF, pc := 0x80000000, word := some 0x005311A3 }) := by decide

/-- V93 (R238): sw x5, 1(x6). -/
theorem test_v93_sw :
    bytesAfter (start 0x80000000 0x005320A3 [(5, 0xAABBCCDD), (6, 0x80001000)] [(0x80001000, [0x80, 0xFF, 0x34, 0x12])]) 0x80001000 8 =
      some ([0x80, 0xDD, 0xCC, 0xBB, 0xAA, 0x00, 0x00, 0x00], 0x80000004) := by decide

/-- V90 (R238): sw x5, 2(x6). -/
theorem test_v90_sw :
    after (start 0x80000000 0x00532123 [(5, 0xAABBCCDD), (6, 0x8000FFFC)] [(0x8000FFFC, [0x11, 0x22, 0x33, 0x44])]) 5 =
      some (0xAABBCCDD, 0x80000000, .fatal { kind := .outOfBounds .store 0x8000FFFE, pc := 0x80000000, word := some 0x00532123 }) := by decide

/-- R231, example: the byte is sign-extended. -/
theorem test_lb_example :
    after (start 0x80000000 0x00030283 [(6, 0x80001000)] [(0x80001000, [0x80, 0xFF, 0x34, 0x12])]) 5 =
      some (0xFFFFFF80, 0x80000004, .running) := by decide

/-- R232, example. -/
theorem test_lh_example :
    after (start 0x80000000 0x00031283 [(6, 0x80001000)] [(0x80001000, [0x80, 0xFF, 0x34, 0x12])]) 5 =
      some (0xFFFFFF80, 0x80000004, .running) := by decide

/-- R234, example: the byte is zero-extended. -/
theorem test_lbu_example :
    after (start 0x80000000 0x00034283 [(6, 0x80001000)] [(0x80001000, [0x80, 0xFF, 0x34, 0x12])]) 5 =
      some (0x00000080, 0x80000004, .running) := by decide

/-- R235, example: the halfword is zero-extended. -/
theorem test_lhu_example :
    after (start 0x80000000 0x00035283 [(6, 0x80001000)] [(0x80001000, [0x80, 0xFF, 0x34, 0x12])]) 5 =
      some (0x0000FF80, 0x80000004, .running) := by decide

/-- R193, example. -/
theorem test_slt_example :
    after (start 0x80000000 0x007322B3 [(6, 0x80000000), (7, 1)]) 5 =
      some (1, 0x80000004, .running) := by decide

/-- R195, example. -/
theorem test_xor_example :
    after (start 0x80000000 0x007342B3 [(6, 0xFF00FF00), (7, 0x0FF00FF0)]) 5 =
      some (0xF0F0F0F0, 0x80000004, .running) := by decide

/-- R198, example. -/
theorem test_or_example :
    after (start 0x80000000 0x007362B3 [(6, 0xF0), (7, 0x0F)]) 5 =
      some (0xFF, 0x80000004, .running) := by decide

/-- R199, example. -/
theorem test_and_example :
    after (start 0x80000000 0x007372B3 [(6, 0xF0), (7, 0x3C)]) 5 =
      some (0x30, 0x80000004, .running) := by decide

/-- R175, example. -/
theorem test_ori_example :
    after (start 0x80000000 0x0F036293 [(6, 0xF00)]) 5 =
      some (0xFF0, 0x80000004, .running) := by decide

/-- R211, example: taken. -/
theorem test_bne_example :
    after (start 0x80000000 0x00629463 [(5, 1), (6, 2)]) 5 =
      some (1, 0x80000008, .running) := by decide

/-- R255, example. -/
theorem test_sret_example :
    after (start 0x80000040 0x10200073 []) 5 =
      some (0, 0x80000044, .running) := by decide

/-- R261, example: rd is not written. -/
theorem test_csrrc_example :
    after (start 0x80000000 0x300332F3 [(5, 7)]) 5 =
      some (7, 0x80000004, .running) := by decide

/-- R262, example: rd is not written. -/
theorem test_csrrwi_example :
    after (start 0x80000000 0x3000D2F3 [(5, 7)]) 5 =
      some (7, 0x80000004, .running) := by decide

/-- R263, example: rd is not written. -/
theorem test_csrrsi_example :
    after (start 0x80000000 0x3000E2F3 [(5, 7)]) 5 =
      some (7, 0x80000004, .running) := by decide

/-! ### The source's own examples -/

/-- W1 to W4 (R17). -/
theorem test_sign_extension :
    sext 8 0xFF = 0xFFFFFFFF ∧ sext 8 0x81 = 0xFFFFFF81 ∧ sext 4 0xB = 0xFFFFFFFB ∧ sext 8 0x7F = 0x7F := by decide

/-- W5, W6 (R22, R23, R138): x0 discards a write; a value is masked to 32 bits. -/
theorem test_register_accessors :
    readIndex (writeIndex State.reset 0 0xFFFFFFFF) 0 = 0 ∧ readIndex (writeIndex State.reset 5 0x100000001) 5 = 1 ∧
    readIndex (writeIndex State.reset 32 0x1FFFFFFFF) 32 = 0xFFFFFFFF := by decide

/-- W10 (R53, R57): bytes 93 02 A0 00 fetch as 0x00A00293. -/
theorem test_fetch_is_little_endian :
    fetchWord ((place State.reset (0x80000000, [0x93, 0x02, 0xA0, 0x00])).setPc 0x80000000) = some 0x00A00293 := by
  decide

/-- R63: a later segment overwrites an earlier one; one that leaves the window is refused whole. -/
theorem test_load_segment :
    (place (place State.reset (0x8000FFFC, [1, 2, 3, 4])) (0x8000FFFD, [9])).mem.readBytes 0x8000FFFC 4 = [1, 9, 3, 4] ∧
    loadSegment 0x8000FFFD [1, 2, 3, 4] State.reset = .error .bounds := by decide

/-- R312: run() with entry never set starts at address 0, outside the default window. -/
theorem test_run_without_entry :
    (run [false, false] State.reset).1 =
      some (.fatalError { kind := .outOfBounds .fetch 0, pc := 0, word := none }) := by decide

/-- W11, the program P1 (95_test_vectors.md section 3) cut to its last step: the exit ECALL returns Halted-Success. -/
theorem test_run_exits :
    (run [false, false] (setEntry 0x8000000C (start 0x8000000C 0x00000073 [(17, 93)]))).1 = some .haltedSuccess := by
  decide

/-- R129, R130: the stop flag ends the loop between steps. -/
theorem test_run_stops :
    (run [true] (setEntry 0x80000000 (start 0x80000000 0x0000006F []))).1 = some .stopped := by decide

/-- R36: the step record of the example load of R233. -/
theorem test_step_record :
    stepRecord (start 0x80000000 0x00032283 [(6, 0x80001000)] [(0x80001000, [0x80, 0xFF, 0x34, 0x12])]) =
      some { pc := 0x80000000, word := some 0x00032283,
             access := some { kind := .load, addr := 0x80001000, width := 4, value := some 0x1234FF80 } } := by decide

/-- The placed word is the first instruction run after reset (log 5). -/
theorem test_with_fetch_word : after (State.reset.withFetchWord 32 0x00A00293) 5 = some (10, 0x80000004, .running) := by
  decide


/-! ### Witnesses: the hypotheses of the statements can be met -/

/-- The start state of the witnesses: `addi x5, x0, 1` at the start of the window. -/
def base : State := start 0x80000000 0x00100293 []

/-- A state at the end of a run. -/
def ended : State := base.setStatus .haltedSuccess

/-- The least window the parameters allow, at the top of the address space (R11). -/
def topConfig : Config := { memBase := 0xFFFFFFFC, memSize := 4, failCodeReg := 10, memInit := [(3, 0xFF)] }

theorem witness_EncodeThenDecodeGivesTheInstructionBack :
    (Instr.bgeu 31 31 (-4096)).wf = true ∧ (Instr.jal 31 1048574).wf = true ∧ (Instr.csrrci 31 0xFFF 31).wf = true := by
  decide

theorem witness_DecodeThenEncodeGivesTheWordBack : decode 0xFE000EE3 = some (.beq 0 0 (-4)) := by decide

/-- Every row's own pattern is a word that the row matches: the hypotheses of OpcodeRowsDoNotOverlap and of every
`RowDecodes` clause. -/
theorem witness_rows : ∀ p ∈ opcodeTableRows, p.2 &&& p.1 = p.2 := by
  have h : opcodeTableRows.all (fun p => p.2 &&& p.1 == p.2) = true := by decide
  exact fun p hp => by simpa using List.all_eq_true.mp h p hp

theorem witness_UnknownWordsEndTheRun :
    (start 0x80000000 0x027302B3 []).status = .running ∧ fetchWord (start 0x80000000 0x027302B3 []) = some 0x027302B3 ∧
    ∀ p ∈ opcodeTableRows, (0x027302B3 : Word) &&& p.1 ≠ p.2 := by
  have h : opcodeTableRows.all (fun p => (0x027302B3 : Word) &&& p.1 != p.2) = true := by decide
  exact ⟨by decide, by decide, fun p hp => by simpa using List.all_eq_true.mp h p hp⟩

/-- A word for each of the twelve clauses, in their order. -/
theorem witness_ReservedEncodingsAreUnknown :
    (0x00000001 : Word).extractLsb 1 0 ≠ 0b11#2 ∧
    (0x0000002F : Word).extractLsb 6 0 ∉ [0x03#7, 0x0F#7, 0x13#7, 0x17#7, 0x23#7, 0x33#7, 0x37#7, 0x63#7, 0x67#7, 0x6F#7, 0x73#7] ∧
    ((0x000312E7 : Word).extractLsb 6 0 = 0x67#7 ∧ (0x000312E7 : Word).extractLsb 14 12 ≠ 0#3) ∧
    ((0x0062A463 : Word).extractLsb 6 0 = 0x63#7 ∧ (0x0062A463 : Word).extractLsb 14 12 ∈ [2#3, 3#3]) ∧
    ((0x00033283 : Word).extractLsb 6 0 = 0x03#7 ∧ (0x00033283 : Word).extractLsb 14 12 ∈ [3#3, 6#3, 7#3]) ∧
    ((0x00533023 : Word).extractLsb 6 0 = 0x23#7 ∧ (0x00533023 : Word).extractLsb 14 12 ∈ [3#3, 4#3, 5#3, 6#3, 7#3]) ∧
    ((0x02431293 : Word).extractLsb 6 0 = 0x13#7 ∧ (0x02431293 : Word).extractLsb 14 12 = 1#3 ∧
      (0x02431293 : Word).extractLsb 31 25 ≠ 0#7) ∧
    ((0x60435293 : Word).extractLsb 6 0 = 0x13#7 ∧ (0x60435293 : Word).extractLsb 14 12 = 5#3 ∧
      (0x60435293 : Word).extractLsb 31 25 ∉ [0#7, 0x20#7]) ∧
    ((0x027302B3 : Word).extractLsb 6 0 = 0x33#7 ∧ (0x027302B3 : Word).extractLsb 31 25 ∉ [0#7, 0x20#7]) ∧
    ((0x407342B3 : Word).extractLsb 6 0 = 0x33#7 ∧ (0x407342B3 : Word).extractLsb 31 25 = 0x20#7 ∧
      (0x407342B3 : Word).extractLsb 14 12 ∉ [0#3, 5#3]) ∧
    ((0x00004073 : Word).extractLsb 6 0 = 0x73#7 ∧ (0x00004073 : Word).extractLsb 14 12 = 4#3) ∧
    ((0x000000F3 : Word).extractLsb 6 0 = 0x73#7 ∧ (0x000000F3 : Word).extractLsb 14 12 = 0#3 ∧
      (0x000000F3 : Word) ∉ [0x00000073#32, 0x00100073#32, 0x10200073#32, 0x30200073#32, 0x10500073#32] ∧
      ¬ ((0x000000F3 : Word).extractLsb 31 25 = 9#7 ∧ (0x000000F3 : Word).extractLsb 11 7 = 0#5)) ∧
    ((0x0000200F : Word).extractLsb 6 0 = 0x0F#7 ∧ (0x0000200F : Word).extractLsb 14 12 ∉ [0#3, 1#3]) := by decide

theorem witness_IgnoredFieldsDoNotMatter :
    ((0x0FF3028F : Word) &&& 0x707F = (0x0000000F : Word) &&& 0x707F ∧ (0x0FF3028F : Word) &&& 0x707F = 0x0000000F) ∧
    ((0xFFFFFFF3 : Word) &&& 0x707F = (0x00007073 : Word) &&& 0x707F ∧ (0xFFFFFFF3 : Word) &&& 0x707F = 0x00007073) ∧
    ((0x12000073 : Word) &&& 0xFE007FFF = 0x12000073 ∧ (0x13FF8073 : Word) &&& 0xFE007FFF = 0x12000073) := by decide

theorem witness_SignExtensionIsTwosComplement : ∃ n m : Nat, n = 1 ∧ m = 32 ∧ 1 ≤ n ∧ n ≤ 32 ∧ 1 ≤ m ∧ m ≤ 32 := by
  exact ⟨1, 32, by decide⟩

/-- The first and the last bit. -/
theorem witness_ImmediatesAreAssembledBitByBit : ∃ j k : Nat, j = 0 ∧ k = 31 ∧ j < 32 ∧ k < 32 := ⟨0, 31, by decide⟩

/-- Two states with the same parameters, the default ones, and the last offset of the window. -/
theorem witness_ResetSetsEveryPieceOfState :
    base.cfg = ended.cfg ∧ base.cfg = Config.standard ∧ 65535 < base.cfg.memSize := by decide

theorem witness_ResetStateMeetsTheInvariant : validConfig Config.standard ∧ validConfig topConfig := by decide

theorem witness_EveryStepKeepsTheInvariant : base.Inv ∧ ∃ t, step base = .next t := ⟨by decide, _, rfl⟩

theorem witness_HostOperationsKeepTheInvariant :
    base.Inv ∧ ended.Inv ∧ (State.resetWith topConfig).Inv ∧ ∃ t, loadSegment 0x8000FFFF [1] base = .ok t :=
  ⟨by decide, by decide, by decide, _, rfl⟩

theorem witness_RegisterAccessorsReadBackWhatIsWritten : ∃ (r : Reg) (i : Fin 33), r = 31 ∧ i.val = r.toNat :=
  ⟨31, 31, by decide⟩

/-- Both sides of the check at each end of the window. -/
theorem witness_MemoryPrimitivesCheckThenTransfer :
    Memory.wf base.mem ∧ InWindow base.cfg (0x80000000 : Word).toNat 4 ∧ InWindow base.cfg (0x8000FFFC : Word).toNat 4 ∧
    ¬ InWindow base.cfg (0x8000FFFD : Word).toNat 4 ∧ ¬ InWindow base.cfg (0x7FFFFFFF : Word).toNat 1 := by decide

theorem witness_FetchReadsFourBytesOrEndsTheRun :
    InWindow base.cfg (base.setPc 0x8000FFFC).pc.toNat 4 ∧ ¬ InWindow base.cfg (base.setPc 0x8000FFFD).pc.toNat 4 ∧
    (base.setPc 0x8000FFFD).status = .running := by decide

/-- `sw x6, -4(x6)` with x6 at the end of the window, then loads at the word and at its last byte. -/
theorem witness_StoredWordIsLoadedAndFetched :
    (base.writeReg 6 0x80010000).Inv ∧
    InWindow base.cfg (storeAddress 6 (-4) (base.writeReg 6 0x80010000)).toNat 4 ∧
    ∃ t, exec (.sw 6 6 (-4)) (base.writeReg 6 0x80010000) = .next t ∧
      loadAddress 6 (-4) t = storeAddress 6 (-4) (base.writeReg 6 0x80010000) ∧
      loadAddress 6 (-1) t = storeAddress 6 (-4) (base.writeReg 6 0x80010000) + BitVec.ofNat 32 3 :=
  ⟨by decide, by decide, _, rfl, by decide, by decide⟩

theorem witness_LoadSegmentWritesAllOrNothing :
    Memory.wf base.mem ∧ InWindow base.cfg (0x8000FFFE : Word).toNat [(1 : Byte), 2].length ∧
    InWindow base.cfg (0x80010000 : Word).toNat ([] : List Byte).length ∧
    ¬ InWindow base.cfg (0x8000FFFF : Word).toNat [(1 : Byte), 2].length := by decide

theorem witness_ReadMemoryReturnsTheBytes :
    InWindow base.cfg (0x8000FFFF : Word).toNat 1 ∧ ¬ InWindow base.cfg (0x8000FFFF : Word).toNat 2 := by decide

/-- Another funct3 of JALR, and a jump that leaves the window (V14). -/
theorem witness_JumpsLinkAndGoToTheirTarget :
    (0x000312E7 : Word).extractLsb 6 0 = 0b1100111#7 ∧ (0x000312E7 : Word).extractLsb 14 12 ≠ 0#3 ∧
    ∃ t, exec (.jalr 5 6 0) (base.writeReg 6 1) = .next t ∧ t.status = .running ∧ ¬ InWindow t.cfg t.pc.toNat 4 :=
  ⟨by decide, by decide, _, rfl, by decide, by decide⟩

theorem witness_ImmediateAluInstructionsCompute :
    (0x02431293 : Word) &&& 0x707F = 0x1013 ∧ (0x02431293 : Word).extractLsb 31 25 ≠ 0#7 := by decide

/-- Each condition holds of some operands and fails of others, at the edges of each order. -/
theorem witness_BranchesGoToTargetOrNext :
    ((0x0062A463 : Word).extractLsb 6 0 = 0b1100011#7 ∧ (0x0062A463 : Word).extractLsb 14 12 ∈ [2#3, 3#3]) ∧
    ((base.writeReg 5 7).readReg 5 ≠ (base.writeReg 5 7).readReg 6 ∧ base.readReg 5 = base.readReg 6) ∧
    ((base.writeReg 5 0x80000000).readReg 5).toInt < ((base.writeReg 5 0x80000000).readReg 6).toInt ∧
    ¬ ((base.writeReg 5 0x7FFFFFFF).readReg 5).toInt < ((base.writeReg 5 0x7FFFFFFF).readReg 6).toInt ∧
    ((base.writeReg 6 1).readReg 5).toNat < ((base.writeReg 6 1).readReg 6).toNat ∧
    ¬ (base.readReg 5).toNat < (base.readReg 6).toNat := by decide

theorem witness_branch_leaves_the_window :
    ∃ t, exec (.beq 0 0 (-8)) base = .next t ∧ t.status = .running ∧ ¬ InWindow t.cfg t.pc.toNat 4 :=
  ⟨_, rfl, by decide, by decide⟩

/-- The last address at which each width fits, and the next one. -/
theorem witness_LoadsExtendTheBytesTheyRead :
    (InWindow base.cfg (basePlus (base.writeReg 6 0x8000FFFC) 6 3).toNat 1 ∧
      ¬ InWindow base.cfg (basePlus (base.writeReg 6 0x8000FFFC) 6 4).toNat 1) ∧
    (InWindow base.cfg (basePlus (base.writeReg 6 0x8000FFFC) 6 2).toNat 2 ∧
      ¬ InWindow base.cfg (basePlus (base.writeReg 6 0x8000FFFC) 6 3).toNat 2) ∧
    (InWindow base.cfg (basePlus (base.writeReg 6 0x8000FFFC) 6 0).toNat 4 ∧
      ¬ InWindow base.cfg (basePlus (base.writeReg 6 0x8000FFFC) 6 1).toNat 4) := by decide

theorem witness_LoadToZeroStillChecksItsAddress :
    destOf (.lw 0 6 0) = some 0 ∧
    loadOf (.lw 0 6 0) (base.writeReg 6 0x8000FFFC) = some (0x8000FFFC, 4) ∧ InWindow base.cfg (0x8000FFFC : Word).toNat 4 ∧
    loadOf (.lw 0 6 0) (base.writeReg 6 0x80010000) = some (0x80010000, 4) ∧
    ¬ InWindow base.cfg (0x80010000 : Word).toNat 4 := by decide

/-- The last address at which each width fits, and the next one. -/
theorem witness_StoresWriteTheirLowBytes :
    Memory.wf (base.writeReg 6 0x8000FFFC).mem ∧
    (InWindow base.cfg (storeAddress 6 3 (base.writeReg 6 0x8000FFFC)).toNat 1 ∧
      ¬ InWindow base.cfg (storeAddress 6 4 (base.writeReg 6 0x8000FFFC)).toNat 1) ∧
    (InWindow base.cfg (storeAddress 6 2 (base.writeReg 6 0x8000FFFC)).toNat 2 ∧
      ¬ InWindow base.cfg (storeAddress 6 3 (base.writeReg 6 0x8000FFFC)).toNat 2) ∧
    (InWindow base.cfg (storeAddress 6 0 (base.writeReg 6 0x8000FFFC)).toNat 4 ∧
      ¬ InWindow base.cfg (storeAddress 6 1 (base.writeReg 6 0x8000FFFC)).toNat 4) := by decide

theorem witness_EnvironmentCallExitsOrFails :
    decode 0x00000073 = some .ecall ∧
    ((base.writeReg 17 93).readReg 17 = 93 ∧ (base.writeReg 17 93).readReg 10 = 0) ∧
    (((base.writeReg 17 93).writeReg 10 1).readReg 17 = 93 ∧ ((base.writeReg 17 93).writeReg 10 1).readReg 10 ≠ 0) ∧
    (base.writeReg 17 92).readReg 17 ≠ 93 := by decide

theorem witness_FencesOnlyAdvance :
    (0x0000200F : Word).extractLsb 6 0 = 0b0001111#7 ∧ 2 ≤ ((0x0000200F : Word).extractLsb 14 12).toNat ∧
    ((0x0000700F : Word).extractLsb 6 0 = 0b0001111#7 ∧ 2 ≤ ((0x0000700F : Word).extractLsb 14 12).toNat) := by decide

/-- The three kinds of step: a known word, an unknown word, a failed fetch. -/
theorem witness_StepRunsTheDecodedInstruction :
    (base.status = .running ∧ fetchWord base = some 0x00100293 ∧ decode 0x00100293 = some (.addi 5 0 1)) ∧
    ((base.setPc 0x80000004).status = .running ∧ fetchWord (base.setPc 0x80000004) = some 0 ∧ decode 0 = none) ∧
    ((base.setPc 0x7FFFFFFF).status = .running ∧ fetchWord (base.setPc 0x7FFFFFFF) = none) := by decide

theorem witness_NoStepFromATerminalStatus : ended.status ≠ .running := by decide

theorem witness_HostStepTakesOneStep : base.status = .running ∧ ended.status ≠ .running := by decide

theorem witness_SetEntryIsCheckedByTheFirstFetch :
    base.status = .running ∧ ¬ InWindow base.cfg (0x8000FFFD : Word).toNat 4 := by decide

theorem witness_NoInstructionReadsOrWritesEntry :
    base.status = .running ∧ ∃ t, exec (.auipc 5 0xFFFFF) base = .next t := ⟨by decide, _, rfl⟩

theorem witness_StepEndsInOneOfThreeWays : base.status = .running := by decide

/-- An untaken branch that goes on, and a step that raises. -/
theorem witness_PcAdvancesByFourUnlessReplaced :
    (∃ t, exec (.bne 5 6 8) base = .next t ∧ base.status = .running ∧ t.status = .running) ∧
    ¬ ReplacesPc (.bne 5 6 8) base ∧
    ∃ t, exec .ebreak base = .next t ∧ base.status = .running ∧ t.status ≠ .running :=
  ⟨⟨_, rfl, by decide, by decide⟩, fun h => h rfl, _, rfl, by decide, by decide⟩

/-- A store and its bytes: an address inside them and one outside. -/
theorem witness_OnlyNamedStateChanges :
    (∃ t, exec (.sw 6 5 0) (base.writeReg 6 0x8000FFFC) = .next t) ∧ destOf (.sw 6 5 0) ≠ some 5 ∧
    storeOf (.sw 6 5 0) (base.writeReg 6 0x8000FFFC) = some (0x8000FFFC, 4) ∧
    0x8000FFFB < (0x8000FFFC : Word).toNat := ⟨⟨_, rfl⟩, by decide, by decide, by decide⟩

theorem witness_FatalErrorsArePrecise :
    ∃ t, step (base.setPc 0x80000004) = .next t ∧
      t.status = .fatal { kind := .unknownInstruction, pc := 0x80000004, word := some 0 } := ⟨_, rfl, rfl⟩

/-- Each row of the table happens: fetch, load, store, unknown word, unsupported call, breakpoint. -/
theorem witness_FatalErrorsAreExactlyTheTable :
    ¬ InWindow base.cfg (base.setPc 0x8000FFFD).pc.toNat 4 ∧ (base.setPc 0x8000FFFD).status = .running ∧
    loadOf (.lw 5 6 1) (base.writeReg 6 0x8000FFFC) = some (0x8000FFFD, 4) ∧
    storeOf (.sw 6 5 1) (base.writeReg 6 0x8000FFFC) = some (0x8000FFFD, 4) ∧
    ¬ InWindow base.cfg (0x8000FFFD : Word).toNat 4 ∧
    fetchWord (base.setPc 0x80000004) = some 0 ∧ decode 0 = none ∧
    (fetchWord (start 0x80000000 0x00000073 []) = some 0x00000073 ∧ (start 0x80000000 0x00000073 []).readReg 17 ≠ 93) ∧
    fetchWord (start 0x80000000 0x00100073 []) = some 0x00100073 := by decide

theorem witness_OnlyTheExitCallHalts :
    (start 0x80000000 0x00000073 [(17, 93)]).status = .running ∧
    (∃ t, step (start 0x80000000 0x00000073 [(17, 93)]) = .next t ∧ t.status = .haltedSuccess) ∧
    ∃ t, step (start 0x80000000 0x00000073 [(17, 93), (10, 1), (3, 5)]) = .next t ∧ t.status = .haltedFailure 5 :=
  ⟨by decide, ⟨_, rfl, rfl⟩, _, rfl, rfl⟩

/-- A load, a store and an instruction with no access, each as the fetched word of a running state. -/
theorem witness_StepRecordShowsTheAccess :
    (fetchWord (start 0x80000000 0x00032283 [(6, 0x80001000)]) = some 0x00032283 ∧
      decode 0x00032283 = some (.lw 5 6 0) ∧
      loadOf (.lw 5 6 0) (start 0x80000000 0x00032283 [(6, 0x80001000)]) = some (0x80001000, 4)) ∧
    (Memory.wf (start 0x80000000 0x00532023 [(6, 0x8000FFFC)]).mem ∧
      fetchWord (start 0x80000000 0x00532023 [(6, 0x8000FFFC)]) = some 0x00532023 ∧
      decode 0x00532023 = some (.sw 6 5 0) ∧ steps (start 0x80000000 0x00532023 [(6, 0x8000FFFC)]) = true ∧
      storeOf (.sw 6 5 0) (start 0x80000000 0x00532023 [(6, 0x8000FFFC)]) = some (0x8000FFFC, 4)) ∧
    (fetchWord base = some 0x00100293 ∧ loadOf (.addi 5 0 1) base = none ∧ storeOf (.addi 5 0 1) base = none) ∧
    fetchWord (base.setPc 0) = none ∧ fetchWord (base.setPc 0x80000004) = some 0 := by decide

theorem witness_RunCopiesTheEntryAndLoops :
    resultOf ended.status = some .haltedSuccess ∧ base.status = .running ∧ steps base = true := by decide

theorem witness_RunResultIsTheStatusOfAReachedState :
    (continueRun [false, true] base).1 = some .stopped ∧
    (run [false] (setEntry 0x80000000 (start 0x80000000 0x00100073 []))).1 =
      some (.fatalError { kind := .breakpoint, pc := 0x80000000, word := some 0x00100073 }) := by decide

theorem witness_PlacedInstructionIsTheNextOneRun :
    base.Inv ∧ (State.resetWith topConfig).Inv ∧ (Instr.jal 31 (-2)).wf = true := by decide

end Sys2Proof.Tests.Slice0
end

section
/-!
PROOFS. Sign and zero extension (00_scope.md R17) and the state after reset under the parameters of R11 to R13.
-/
namespace Sys2Proof.Machine

/-! ### Sign and zero extension -/

/-- The sign bit of the low `n` bits of a word is bit `n - 1` of the word. -/
theorem msb_setWidth_eq_testBit {n : Nat} (v : Word) (hn : 0 < n) :
    (v.setWidth n).msb = v.toNat.testBit (n - 1) := by
  rw [BitVec.msb_setWidth, BitVec.testBit_toNat, decide_eq_true hn, Bool.true_and]

/-- Up to width 32, sign extension keeps the signed value of the low bits. -/
theorem sext_toInt {n : Nat} (v : Word) (hn : n ≤ 32) : (sext n v).toInt = (v.setWidth n).toInt :=
  BitVec.toInt_signExtend_of_le hn

/-- Up to width 32, zero extension keeps the unsigned value of the low bits. -/
theorem zext_toNat {n : Nat} (v : Word) (hn : n ≤ 32) : (zext n v).toNat = v.toNat % 2 ^ n := by
  rw [zext, BitVec.toNat_setWidth_of_le hn, BitVec.toNat_setWidth]

/-- Settles O8: the signed value of the low bits is kept, and it is the one its sign bit, bit `N - 1` of the word, says. -/
theorem signExtensionIsTwosComplement : Obligations.SignExtensionIsTwosComplement := by
  intro n v hpos hn
  refine ⟨?_, zext_toNat v hn⟩
  rw [sext_toInt v hn, BitVec.toInt_eq_msb_cond, msb_setWidth_eq_testBit v hpos,
    BitVec.toNat_setWidth]
  push_cast
  rfl

/-! ### The state after reset -/

/-- The bytes of the initial memory lie in the window when the offsets of `MEM_INIT` do (R13). -/
theorem initialMemory_inWindow {c : Config} (h : ∀ cell ∈ c.memInit, cell.1 < c.memSize) :
    ∀ cell ∈ initialMemory c, InWindow c cell.1 1 := by
  intro cell hcell
  obtain ⟨d, hd, rfl⟩ := List.mem_map.mp hcell
  have hoff : d.1 < c.memSize := h d hd
  exact ⟨Nat.le_add_right _ _, by simp only; omega⟩

/-- The state after reset meets the invariant for every parameter choice the spec allows (R11, R13, R310). -/
theorem State.resetWith_inv {c : Config} (h : validConfig c) : (State.resetWith c).Inv := by
  have ⟨_, _, hwf, hoff⟩ := h
  exact ⟨h, initialMemory_wf hwf, initialMemory_inWindow hoff⟩

/-- The source's own parameters are allowed (R11, R13). -/
theorem validConfig_standard : validConfig Config.standard := by decide

/-- Settles O11: the initial memory is canonical and in the window, and the source's own parameters are allowed. -/
theorem resetStateMeetsTheInvariant : Obligations.ResetStateMeetsTheInvariant :=
  ⟨fun _ h => State.resetWith_inv h, State.resetWith_inv validConfig_standard⟩

/-- Settles O48: the default `MEM_INIT` lists no byte, so the memory after reset is the empty one. -/
theorem resetUsesTheDefaultParameters : Obligations.ResetUsesTheDefaultParameters := by
  have hmem : State.reset.mem = [] := rfl
  refine ⟨rfl, rfl, rfl, fun a => ?_⟩
  rw [hmem, Memory.read_nil]

end Sys2Proof.Machine
end

section
/-!
PROOFS. What the pieces of state of 10_state.md are at reset and what changes them: the frame of the execute phase (R30,
R64), the entry register (R35) and the step record (R36).
-/
namespace Sys2Proof.Machine

/-! ### Reset -/

/-- Settles O10: the reset state is built from the parameters alone, and its bytes are those of `MEM_INIT`. -/
theorem resetSetsEveryPieceOfState : Obligations.ResetSetsEveryPieceOfState :=
  ⟨fun s => ⟨State.readReg_resetWith s.cfg, rfl, rfl, rfl, rfl, fun off _ => read_initialMemory s.cfg off⟩,
    fun _ _ h => congrArg State.resetWith h, fun _ h => congrArg State.resetWith h⟩

/-! ### The frame of the execute phase -/

/-- An instruction writes no register but the destination its format names (R30). -/
theorem exec_readReg_of_not_dest {i : Instr} {s t : State} (h : exec i s = .next t) {r : Reg}
    (hr : destOf i ≠ some r) : t.readReg r = s.readReg r := by
  cases exec_cases h with
  | writes v target hd =>
    exact (continueWith_writesReg _ v target s).regs r fun e => hr (e ▸ hd)
  | continues | stores | ends => simp

/-- An instruction writes no byte but those its own store addresses (R64). -/
theorem exec_read_of_not_stored {i : Instr} {s t : State} (h : exec i s = .next t) {b : Nat}
    (hb : ∀ a n, storeOf i s = some (a, n) → b < a.toNat ∨ a.toNat + n ≤ b) : t.mem.read b = s.mem.read b := by
  cases exec_cases h with
  | stores v hs => exact Memory.read_writeLE_other s.mem v (hb _ _ hs)
  | writes v target => exact (continueWith_writesReg _ v target s).mem b
  | continues | ends => simp

/-- No instruction writes the entry register (R35). -/
theorem exec_entry {i : Instr} {s t : State} (h : exec i s = .next t) : t.entry = s.entry := by
  cases exec_cases h with
  | writes v target => exact (continueWith_writesReg _ v target s).entry
  | continues | stores | ends => simp

/-- No instruction writes the parameters (R20). -/
theorem exec_cfg {i : Instr} {s t : State} (h : exec i s = .next t) : t.cfg = s.cfg := by
  cases exec_cases h with
  | writes v target => exact (continueWith_writesReg _ v target s).cfg
  | continues | stores | ends => simp

/-- Settles O40: each of the four ends of an instruction leaves all but the named state alone. -/
theorem onlyNamedStateChanges : Obligations.OnlyNamedStateChanges := fun _ _ t h =>
  ⟨fun _ hr => exec_readReg_of_not_dest h hr, t.readReg_zero, fun _ hb => exec_read_of_not_stored h hb,
    exec_entry h, exec_cfg h⟩

/-! ### The entry register -/

/-- The answer with the entry register of its next state replaced. -/
def resultWithEntry (a : Word) : Result → Result
  | .next t => .next (t.setEntry a)
  | .fault r => .fault r
  | .refused r => .refused r

theorem State.writeReg_setEntry (s : State) (a : Word) (r : Reg) (v : Word) :
    (s.setEntry a).writeReg r v = (s.writeReg r v).setEntry a := by
  unfold State.writeReg
  split <;> rfl

/-- The end with a register write commutes with a change of entry. -/
theorem continueWith_setEntry (rd : Reg) (v target : Word) (s : State) (a : Word) :
    continueWith rd v target (s.setEntry a) = (continueWith rd v target s).setEntry a :=
  congrArg (State.setPc · target) (State.writeReg_setEntry s a rd v)

theorem writeAndAdvance_setEntry (rd : Reg) (v : Word) (s : State) (a : Word) :
    writeAndAdvance rd v (s.setEntry a) = resultWithEntry a (writeAndAdvance rd v s) :=
  congrArg Host.Outcome.next (continueWith_setEntry rd v (nextPc s) s a)

theorem loadWith_setEntry (i : Instr) (n : Nat) (ext : Word → Word) (rd rs1 : Reg) (imm : BitVec 12) (s : State)
    (a : Word) : loadWith i n ext rd rs1 imm (s.setEntry a) = resultWithEntry a (loadWith i n ext rd rs1 imm s) := by
  by_cases h : InWindow s.cfg (loadAddress rs1 imm s).toNat n
  · rw [loadWith_of_inWindow h, loadWith_of_inWindow (s := s.setEntry a) h]
    exact congrArg Host.Outcome.next (continueWith_setEntry ..)
  · rw [loadWith_of_not_inWindow h, loadWith_of_not_inWindow (s := s.setEntry a) h]
    rfl

theorem storeWith_setEntry (i : Instr) (n : Nat) (rs1 rs2 : Reg) (imm : BitVec 12) (s : State) (a : Word) :
    storeWith i n rs1 rs2 imm (s.setEntry a) = resultWithEntry a (storeWith i n rs1 rs2 imm s) := by
  by_cases h : InWindow s.cfg (storeAddress rs1 imm s).toNat n
  · rw [storeWith_of_inWindow h, storeWith_of_inWindow (s := s.setEntry a) h]
    rfl
  · rw [storeWith_of_not_inWindow h, storeWith_of_not_inWindow (s := s.setEntry a) h]
    rfl

/-- The exit call with a0 = 0 (R250). -/
theorem execEcall_of_success {s : State} (h : s.readReg Config.exitNumReg = Config.exitNum)
    (h0 : s.readReg Config.statusReg = 0) : execEcall s = .next (halt .haltedSuccess s) := by
  rw [execEcall, if_pos h, if_pos h0]

/-- The exit call with a0 ≠ 0 (R251). -/
theorem execEcall_of_failure {s : State} (h : s.readReg Config.exitNumReg = Config.exitNum)
    (h0 : s.readReg Config.statusReg ≠ 0) :
    execEcall s = .next (halt (.haltedFailure (s.readReg s.cfg.failCodeReg)) s) := by
  rw [execEcall, if_pos h, if_neg h0]

/-- Any call but the exit call (R252). -/
theorem execEcall_of_unsupported {s : State} (h : s.readReg Config.exitNumReg ≠ Config.exitNum) :
    execEcall s = .next (raise .unsupportedEnvironmentCall (some (encode .ecall)) s) := by
  rw [execEcall, if_neg h]

theorem execEcall_setEntry (s : State) (a : Word) :
    execEcall (s.setEntry a) = resultWithEntry a (execEcall s) := by
  by_cases h : s.readReg Config.exitNumReg = Config.exitNum
  · by_cases h0 : s.readReg Config.statusReg = 0
    · rw [execEcall_of_success h h0, execEcall_of_success (s := s.setEntry a) h h0]
      rfl
    · rw [execEcall_of_failure h h0, execEcall_of_failure (s := s.setEntry a) h h0]
      rfl
  · rw [execEcall_of_unsupported h, execEcall_of_unsupported (s := s.setEntry a) h]
    rfl

/-- With another entry every instruction does the same, and leaves that entry as it is (R35). -/
theorem exec_setEntry (i : Instr) (s : State) (a : Word) :
    exec i (s.setEntry a) = resultWithEntry a (exec i s) := by
  cases i
  case jal | jalr => exact congrArg Host.Outcome.next (continueWith_setEntry ..)
  case lb | lh | lw | lbu | lhu => exact loadWith_setEntry ..
  case sb | sh | sw => exact storeWith_setEntry ..
  case ecall => exact execEcall_setEntry s a
  case beq | bne | blt | bge | bltu | bgeu => rfl
  case fence | fenceI | ebreak | mret | sret | wfi | sfenceVma => rfl
  case csrrw | csrrs | csrrc | csrrwi | csrrsi | csrrci => rfl
  all_goals exact writeAndAdvance_setEntry ..

/-- From a running status, run() goes on from `pc = entry` (R130). -/
theorem run_of_running {s : State} (h : s.status = .running) (stops : List Bool) :
    run stops s = continueRun stops (s.setPc s.entry) := by
  simp only [run, (resultOf_eq_none_iff s.status).mpr h]

/-- Settles O37: every instruction commutes with a change of entry. -/
theorem noInstructionReadsOrWritesEntry : Obligations.NoInstructionReadsOrWritesEntry := by
  refine ⟨fun i s t a h => ⟨exec_entry h, ?_⟩, fun _ _ => rfl, fun s stops h => run_of_running h stops⟩
  calc exec i (setEntry a s) = resultWithEntry a (exec i s) := exec_setEntry i s a
    _ = .next (setEntry a t) := by rw [h]; rfl

/-! ### The step record -/

/-- The bytes just written read back as the low bytes of the value (R55, R56). -/
theorem Memory.readLE_writeLE {m : Memory} (h : Memory.wf m) (a n : Nat) (v : Word) :
    (m.writeLE a n v).readLE a n = v.toNat % 2 ^ (8 * n) := by
  induction n generalizing m a v with
  | zero => simp [Memory.readLE, Nat.mod_one]
  | succ n ih =>
    have hlow : ((m.write a (v.setWidth 8)).writeLE (a + 1) n (v >>> 8)).read a = v.setWidth 8 := by
      rw [Memory.read_writeLE_other _ _ (by omega), Memory.read_write_same h]
    have hpow : 2 ^ (8 * (n + 1)) = 256 * 2 ^ (8 * n) := by rw [Nat.mul_succ, Nat.pow_add, Nat.mul_comm]
    rw [Memory.writeLE, Memory.readLE, hlow, ih (Memory.write_wf h a _), hpow, Nat.mod_mul, BitVec.toNat_setWidth,
      BitVec.toNat_ushiftRight, Nat.shiftRight_eq_div_pow]

/-- The record of a load shows its address, its width and what MemRead answers (R36, R239). -/
theorem accessOf_of_loadOf {i : Instr} {s : State} {a : Word} {n : Nat} (h : loadOf i s = some (a, n)) :
    accessOf i s = some { kind := .load, addr := a, width := n, value := memRead s a n } := by
  cases i
  case lb | lh | lw | lbu | lhu => cases h; rfl
  all_goals cases h

/-- A store is a `storeWith` at its address and width, and its record is that store's (R36). -/
theorem exists_storeWith_of_storeOf {i : Instr} {s : State} {a : Word} {n : Nat} (h : storeOf i s = some (a, n)) :
    ∃ rs1 rs2 imm, storeAddress rs1 imm s = a ∧ exec i s = storeWith i n rs1 rs2 imm s ∧
      accessOf i s = some (storeRecord n rs1 rs2 imm s) := by
  cases i
  case sb | sh | sw => cases h; exact ⟨_, _, _, rfl, rfl, rfl⟩
  all_goals cases h

/-- An instruction that is neither load nor store makes no access (R36). -/
theorem accessOf_eq_none {i : Instr} {s : State} (hl : loadOf i s = none) (hs : storeOf i s = none) :
    accessOf i s = none := by
  cases i
  case lb | lh | lw | lbu | lhu => cases hl
  case sb | sh | sw => cases hs
  all_goals rfl

/-- The bytes a store's record shows are those the next state holds at its address, none out of bounds (R36). -/
theorem storeRecord_value {i : Instr} {n : Nat} {rs1 rs2 : Reg} {imm : BitVec 12} {s t : State}
    (hm : Memory.wf s.mem) (h : storeWith i n rs1 rs2 imm s = .next t) :
    (storeRecord n rs1 rs2 imm s).value = memRead t (storeAddress rs1 imm s) n := by
  simp only [storeRecord]
  by_cases hb : InWindow s.cfg (storeAddress rs1 imm s).toNat n
  · rw [storeWith_of_inWindow hb] at h
    cases h
    rw [memWrite_of_inWindow _ hb, memRead_of_inWindow (by simpa using hb)]
    simp [Memory.readLE_writeLE hm]
  · rw [storeWith_of_not_inWindow hb] at h
    cases h
    rw [memWrite_of_not_inWindow _ hb, memRead_of_not_inWindow (by simpa using hb), Option.map_none]

/-- The record of a store shows its address, its width and the bytes the next state holds there (R36). -/
theorem accessOf_of_storeOf {i : Instr} {s t : State} {a : Word} {n : Nat} (hm : Memory.wf s.mem)
    (hs : storeOf i s = some (a, n)) (h : exec i s = .next t) :
    accessOf i s = some { kind := .store, addr := a, width := n, value := memRead t a n } := by
  obtain ⟨rs1, rs2, imm, rfl, he, hacc⟩ := exists_storeWith_of_storeOf hs
  rw [hacc, ← storeRecord_value hm (he ▸ h)]
  rfl

theorem runningRecord_of_no_fetch {s : State} (h : fetchWord s = none) :
    runningRecord s = { pc := s.pc, word := none, access := none } := by
  simp only [runningRecord, h]

theorem runningRecord_of_fetch {s : State} {w : Word} (h : fetchWord s = some w) :
    runningRecord s = { pc := s.pc, word := some w, access := (decode w).bind fun i => accessOf i s } := by
  simp only [runningRecord, h]

/-- The step of a fetched and decoded instruction is its execute phase (R122). -/
theorem step_of_decode {s : State} {w : Word} {i : Instr} (h : s.status = .running) (hw : fetchWord s = some w)
    (hi : decode w = some i) : step s = exec i s := by
  simp only [step, h, hw, hi]

/-- Settles O44: by the fetch, and then by the kind of access of the decoded instruction. -/
theorem stepRecordShowsTheAccess : Obligations.StepRecordShowsTheAccess := by
  intro s hrun
  have hrec : stepRecord s = some (runningRecord s) := by rw [stepRecord_eq, if_pos hrun]
  refine ⟨_, hrec, ?_⟩
  cases hf : fetchWord s with
  | none =>
    rw [runningRecord_of_no_fetch hf]
    exact ⟨rfl, rfl, fun _ => rfl, nofun, nofun⟩
  | some w =>
    rw [runningRecord_of_fetch hf]
    refine ⟨rfl, rfl, nofun, ?_, ?_⟩
    · rintro _ ⟨⟩ hd
      simp only [hd, Option.bind_none]
    · rintro _ i ⟨⟩ hd
      simp only [hd, Option.bind_some]
      exact ⟨fun _ _ hl => accessOf_of_loadOf hl,
        fun _ _ _ hm hs ht => accessOf_of_storeOf hm hs (step_of_decode hrun hf hd ▸ ht), accessOf_eq_none⟩

end Sys2Proof.Machine
end

section
/-!
PROOFS. The memory of 20_memory.md: what keeps the invariant of its window (R51, R64), the bounds check and the two
primitives (R52, R55, R56), the fetch (R57), and that a stored word is what later loads and fetches see (R54, R68).
-/
namespace Sys2Proof.Machine

/-! ### The invariant -/

/-- The invariant speaks of the memory and the parameters alone. -/
theorem State.Inv.of_mem_cfg {s t : State} (h : s.Inv) (hm : t.mem = s.mem) (hc : t.cfg = s.cfg) : t.Inv := by
  rw [State.Inv, hm, hc]
  exact h

/-- A write of bytes that lie in the window keeps the invariant (R51, R64). -/
theorem State.Inv.setMem_writeLE {s : State} (h : s.Inv) {a n : Nat} (v : Word) (hb : InWindow s.cfg a n) :
    (s.setMem (s.mem.writeLE a n v)).Inv := by
  obtain ⟨hcfg, hwf, hin⟩ := h
  refine ⟨hcfg, Memory.writeLE_wf hwf a n v, fun cell hcell => ?_⟩
  rcases Memory.mem_writeLE hcell with hnew | hold
  · exact (⟨by omega, by omega⟩ : InWindow s.cfg cell.1 1)
  · exact hin cell hold

/-- Each of the four ends of an instruction keeps the invariant. -/
theorem exec_inv {i : Instr} {s t : State} (h : s.Inv) (ht : exec i s = .next t) : t.Inv := by
  cases exec_cases ht with
  | writes v target => exact h.of_mem_cfg (by simp [continueWith]) (by simp [continueWith])
  | continues target => exact h.of_mem_cfg rfl rfl
  | stores v _ _ hb => exact (h.setMem_writeLE v hb).of_mem_cfg rfl rfl
  | ends => exact h.of_mem_cfg rfl rfl

/-- A step sets the status alone, or is the execute phase of an instruction (R122). -/
theorem step_cases {s t : State} (h : step s = .next t) :
    (∃ st, t = s.setStatus st) ∨ ∃ i, exec i s = .next t := by
  by_cases hrun : s.status = .running
  · rcases step_running hrun with ⟨-, e⟩ | ⟨w, -, -, e⟩ | ⟨w, i, -, -, e⟩ <;> rw [e] at h
    · exact .inl ⟨_, by cases h; rfl⟩
    · exact .inl ⟨_, by cases h; rfl⟩
    · exact .inr ⟨i, h⟩
  · rw [step_of_not_running hrun] at h
    cases h

/-- Settles O12: a step that sets the status alone leaves the memory as it is, and any other is an instruction's. -/
theorem everyStepKeepsTheInvariant : Obligations.EveryStepKeepsTheInvariant := by
  intro s t h ht
  rcases step_cases ht with ⟨st, rfl⟩ | ⟨i, hi⟩
  · exact h.of_mem_cfg rfl rfl
  · exact exec_inv h hi

/-! ### The memory primitives -/

/-- The little-endian composition is the sum of the bytes, byte `i` times `2^(8i)` (R55). -/
theorem Memory.readLE_eq_sum (m : Memory) (a n : Nat) :
    m.readLE a n = ((List.range n).map fun i => (m.read (a + i)).toNat * 2 ^ (8 * i)).sum := by
  induction n generalizing a with
  | zero => rfl
  | succ n ih =>
    have hbyte : ∀ i, (m.read (a + (i + 1))).toNat * 2 ^ (8 * (i + 1)) =
        256 * ((m.read (a + 1 + i)).toNat * 2 ^ (8 * i)) := fun i => by
      rw [show a + (i + 1) = a + 1 + i by omega, Nat.mul_succ, Nat.pow_add]
      ring
    rw [List.sum_range_succ', Memory.readLE, ih, ← List.sum_map_mul_left]
    simp [hbyte, Nat.add_comm]

/-- Settles O15: each primitive by its bounds check, a read by the sum of its bytes and a write byte by byte. -/
theorem memoryPrimitivesCheckThenTransfer : Obligations.MemoryPrimitivesCheckThenTransfer := by
  refine ⟨inBounds_iff, fun s addr n h => ?_, fun _ _ _ => memRead_of_not_inWindow,
    fun _ _ _ v => memWrite_of_not_inWindow v, fun s addr n v hm h => ⟨_, memWrite_of_inWindow v h, ?_, ?_, ?_⟩⟩
  · rw [memRead_of_inWindow h, Memory.readLE_eq_sum]
  · intro i hi
    rw [State.setMem_mem, Memory.read_writeLE_same hm _ _ v hi]
    exact BitVec.setWidth_ushiftRight_eq_extractLsb.symm
  · exact fun a ha => Memory.read_writeLE_other s.mem v ha
  · exact ⟨fun _ => rfl, rfl, rfl, rfl, rfl⟩

/-! ### The fetch -/

/-- The step of a failed fetch raises at the program counter, with no word (R282). -/
theorem step_of_no_fetch {s : State} (h : s.status = .running) (hw : fetchWord s = none) :
    step s = .next (s.setStatus (outOfBoundsStatus .fetch s.pc s.pc none)) := by
  simp only [step, h, hw, raise_eq, outOfBoundsStatus]

/-- Settles O16: in bounds the word of the four bytes, and otherwise a step that sets the status alone. -/
theorem fetchReadsFourBytesOrEndsTheRun : Obligations.FetchReadsFourBytesOrEndsTheRun := by
  refine fun s => ⟨fun h => ?_, fun h => ?_⟩
  · rw [fetchWord_of_inWindow h, readLE_four]
  · have hw : fetchWord s = none := fetchWord_of_not_inWindow h
    exact ⟨hw, fun hrun => ⟨_, step_of_no_fetch hrun hw, setStatus_setsStatus s _⟩⟩

/-! ### A stored word is loaded and fetched -/

/-- What a load in bounds puts in its register (R231 to R235). -/
theorem loadWith_writesReg {i : Instr} {n : Nat} {ext : Word → Word} {rd rs1 : Reg} {imm : BitVec 12} {s : State}
    {a v : Word} (ha : loadAddress rs1 imm s = a) (h : InWindow s.cfg a.toNat n)
    (hv : ext (BitVec.ofNat 32 (s.mem.readLE a.toNat n)) = v) :
    ∃ u, loadWith i n ext rd rs1 imm s = .next u ∧ WritesReg s u rd v (s.pc + 4) := by
  subst ha hv
  exact ⟨_, loadWith_of_inWindow h, continueWith_writesReg ..⟩

/-- Four stored bytes read back as the stored word (R55, R56). -/
theorem Memory.ofNat_readLE_writeLE_four {m : Memory} (h : Memory.wf m) (a : Nat) (v : Word) :
    BitVec.ofNat 32 ((m.writeLE a 4 v).readLE a 4) = v := by
  rw [Memory.readLE_writeLE h, Nat.mod_eq_of_lt v.isLt, BitVec.ofNat_toNat, BitVec.setWidth_eq]

/-- The low byte, sign-extended: the extension of LB (R231). -/
theorem sext_setWidth_byte (b : Byte) : sext 8 (b.setWidth 32) = b.signExtend 32 := by
  simp [sext]

/-- In a window that does not wrap, the address of byte `i` of an access does not wrap either (R11, R52). -/
theorem toNat_add_of_inWindow {c : Config} (hc : validConfig c) {a : Word} {n i : Nat}
    (h : InWindow c a.toNat n) (hi : i < n) : (a + BitVec.ofNat 32 i).toNat = a.toNat + i := by
  obtain ⟨-, htop, -⟩ := hc
  rw [BitVec.toNat_add, BitVec.toNat_ofNat, Nat.mod_eq_of_lt (a := i) (by omega), Nat.mod_eq_of_lt (by omega)]

/-- Settles O17: the memory after the store holds the word's four bytes, which the fetch and both loads read. -/
theorem storedWordIsLoadedAndFetched : Obligations.StoredWordIsLoadedAndFetched := by
  rintro s t rs1 rs2 imm ⟨hcfg, hwf, -⟩ hb ht
  cases (storeWith_of_inWindow hb).symm.trans ht
  have hword := Memory.ofNat_readLE_writeLE_four hwf (storeAddress rs1 imm s).toNat (s.readReg rs2)
  refine ⟨?_, fun rd r off ha => ?_, fun rd r off i hi ha => ?_⟩
  · rw [fetchWord_of_inWindow (by simpa using hb)]
    exact congrArg some hword
  · exact loadWith_writesReg ha hb hword
  · have hai : (storeAddress rs1 imm s + BitVec.ofNat 32 i).toNat = (storeAddress rs1 imm s).toNat + i :=
      toNat_add_of_inWindow hcfg hb hi
    refine loadWith_writesReg ha ⟨?_, ?_⟩ ?_
    · rw [hai]
      exact hb.1.trans (Nat.le_add_right _ _)
    · rw [hai]
      exact Nat.le_trans (by omega) hb.2
    · rw [hai, readLE_one, sext_setWidth_byte]
      exact congrArg (BitVec.signExtend 32) (Memory.read_writeLE_same hwf _ 4 _ hi)

end Sys2Proof.Machine
end

section
/-!
PROOFS. The encoding of 30_encoding.md: decode and encode are inverse to each other (R98, R104), no word has two rows
(R98), the reserved encodings (R99), the ignored fields (R100), and the bits of the immediates (R90 to R94).
-/
namespace Sys2Proof
open Machine

/-! ### From an instruction to its word and back -/

/-- Every well-formed instruction is what its own word decodes to (R98). -/
theorem decode_encode {i : Instr} (h : i.wf = true) : decode (encode i) = some i := by
  obtain ⟨r, hr, hm, hb⟩ := Laws.TableRow.all i h
  rw [decode_of_row hr hm, hb]

/-- The four bytes of a word, put together again (R53). -/
theorem wordOfBytes_bits (w : Word) : wordOfBytes (bits w 7 0) (bits w 15 8) (bits w 23 16) (bits w 31 24) = w := by
  apply BitVec.eq_of_getLsbD_eq
  intro i hi
  show BitVec.getLsbD (w := 8 + 8 + 8 + 8) (bits w 31 24 ++ bits w 23 16 ++ bits w 15 8 ++ bits w 7 0) i = _
  interval_cases i <;> simp only [BitVec.getLsbD_append, bits_bit] <;> rfl

/-- Decoding the bytes of a known word consumes them and nothing more (R80). -/
theorem decodeBytes_bytesOfWord {w : Word} {i : Instr} (h : decode w = some i) (rest : List Byte) :
    decodeBytes (bytesOfWord w ++ rest) = .ok (i, rest) := by
  simp only [bytesOfWord, List.cons_append, List.nil_append, decodeBytes, wordOfBytes_bits, h]

/-- Settles O1: the instruction's own row matches its word and builds it back, and the word's bytes form the word. -/
theorem encodeThenDecodeGivesTheInstructionBack : Obligations.EncodeThenDecodeGivesTheInstructionBack :=
  fun _ rest h => ⟨decode_encode h, decodeBytes_bytesOfWord (decode_encode h) rest⟩

/-! ### Each format loses no bit of a word -/

theorem encodeR_reassembles (w : Word) :
    encodeR (bits w 31 25) (rs2Field w) (rs1Field w) (bits w 14 12) (rdField w) (bits w 6 0) = w := by
  apply BitVec.eq_of_getLsbD_eq
  intro i hi
  interval_cases i <;> simp only [encodeR_bit, rs1Field, rs2Field, rdField, bits_bit] <;> rfl

theorem encodeI_reassembles (w : Word) :
    encodeI (immIField w) (rs1Field w) (bits w 14 12) (rdField w) (bits w 6 0) = w := by
  apply BitVec.eq_of_getLsbD_eq
  intro i hi
  interval_cases i <;> simp only [encodeI_bit, immIField, rs1Field, rdField, bits_bit] <;> rfl

theorem encodeS_reassembles (w : Word) :
    encodeS (immSField w) (rs2Field w) (rs1Field w) (bits w 14 12) (bits w 6 0) = w := by
  apply BitVec.eq_of_getLsbD_eq
  intro i hi
  interval_cases i <;>
    simp only [encodeS_bit, BitVec.getLsbD_extractLsb, immSField_bit, rs1Field, rs2Field, bits_bit] <;> rfl

theorem encodeB_reassembles (w : Word) :
    encodeB (immBField w) (rs2Field w) (rs1Field w) (bits w 14 12) (bits w 6 0) = w := by
  apply BitVec.eq_of_getLsbD_eq
  intro i hi
  interval_cases i <;>
    simp only [encodeB_bit, BitVec.getLsbD_extractLsb, immBField_bit, rs1Field, rs2Field, bits_bit] <;> rfl

theorem encodeU_reassembles (w : Word) : encodeU (immUField w) (rdField w) (bits w 6 0) = w := by
  apply BitVec.eq_of_getLsbD_eq
  intro i hi
  interval_cases i <;> simp only [encodeU_bit, immUField, rdField, bits_bit] <;> rfl

theorem encodeJ_reassembles (w : Word) : encodeJ (immJField w) (rdField w) (bits w 6 0) = w := by
  apply BitVec.eq_of_getLsbD_eq
  intro i hi
  interval_cases i <;>
    simp only [encodeJ_bit, BitVec.getLsbD_extractLsb, immJField_bit, rdField, bits_bit] <;> rfl

/-- The three fields of FENCE are its I-type field (R84, R270). -/
theorem fenceFields_eq_immIField (w : Word) : bits w 31 28 ++ bits w 27 24 ++ bits w 23 20 = immIField w := by
  apply BitVec.eq_of_getLsbD_eq
  intro i hi
  show BitVec.getLsbD (w := 4 + 4 + 4) (bits w 31 28 ++ bits w 27 24 ++ bits w 23 20) i = _
  interval_cases i <;> simp only [immIField, BitVec.getLsbD_append, bits_bit] <;> rfl

/-- A branch offset read from a word is even (R92). -/
theorem evenOffset_immBField (w : Word) : evenOffset (immBField w) = true := by
  rw [evenOffset, immBField_bit]
  rfl

/-- A JAL offset read from a word is even (R94). -/
theorem evenOffset_immJField (w : Word) : evenOffset (immJField w) = true := by
  rw [evenOffset, immJField_bit]
  rfl

/-! ### The fields that a row's mask keeps -/

/-- A field that the mask keeps whole is the pattern's. -/
theorem bits_eq_of_mask {w m p : Word} {hi lo : Nat} (h : w &&& m = p) (hm : bits m hi lo = BitVec.allOnes _) :
    bits w hi lo = bits p hi lo := by
  subst h
  rw [bits, bits, BitVec.extractLsb_and, ← bits, ← bits, hm, BitVec.and_allOnes]

section
variable {w p : Word} {f7 : BitVec 7} {f3 : BitVec 3} {op : BitVec 7}

theorem encodeR_of_mask (h : w &&& 0xFE00707F = p) (h7 : bits p 31 25 = f7) (h3 : bits p 14 12 = f3)
    (hop : bits p 6 0 = op) : encodeR f7 (rs2Field w) (rs1Field w) f3 (rdField w) op = w := by
  rw [← h7, ← h3, ← hop, ← bits_eq_of_mask h rfl, ← bits_eq_of_mask h rfl, ← bits_eq_of_mask h rfl,
    encodeR_reassembles]

theorem encodeI_of_mask (h : w &&& 0x707F = p) (h3 : bits p 14 12 = f3) (hop : bits p 6 0 = op) :
    encodeI (immIField w) (rs1Field w) f3 (rdField w) op = w := by
  rw [← h3, ← hop, ← bits_eq_of_mask h rfl, ← bits_eq_of_mask h rfl, encodeI_reassembles]

theorem encodeS_of_mask (h : w &&& 0x707F = p) (h3 : bits p 14 12 = f3) (hop : bits p 6 0 = op) :
    encodeS (immSField w) (rs2Field w) (rs1Field w) f3 op = w := by
  rw [← h3, ← hop, ← bits_eq_of_mask h rfl, ← bits_eq_of_mask h rfl, encodeS_reassembles]

theorem encodeB_of_mask (h : w &&& 0x707F = p) (h3 : bits p 14 12 = f3) (hop : bits p 6 0 = op) :
    encodeB (immBField w) (rs2Field w) (rs1Field w) f3 op = w := by
  rw [← h3, ← hop, ← bits_eq_of_mask h rfl, ← bits_eq_of_mask h rfl, encodeB_reassembles]

theorem encodeU_of_mask (h : w &&& 0x7F = p) (hop : bits p 6 0 = op) : encodeU (immUField w) (rdField w) op = w := by
  rw [← hop, ← bits_eq_of_mask h rfl, encodeU_reassembles]

theorem encodeJ_of_mask (h : w &&& 0x7F = p) (hop : bits p 6 0 = op) : encodeJ (immJField w) (rdField w) op = w := by
  rw [← hop, ← bits_eq_of_mask h rfl, encodeJ_reassembles]

end

/-- The mask of SFENCE.VMA keeps `rd` too, which its encoding does not have as an operand (R257). -/
theorem encodeSfence_of_mask {w : Word} (h : w &&& 0xFE007FFF = 0x12000073) :
    encodeR 0b0001001 (rs2Field w) (rs1Field w) 0b000 0 opSystem = w := by
  have h7 : bits w 31 25 = 0b0001001 := bits_eq_of_mask h rfl
  have h3 : bits w 14 12 = 0b000 := bits_eq_of_mask h rfl
  have hrd : rdField w = 0 := bits_eq_of_mask h rfl
  have hop : bits w 6 0 = opSystem := bits_eq_of_mask h rfl
  rw [← h7, ← h3, ← hrd, ← hop, encodeR_reassembles]

/-! ### From a word to its instruction and back -/

/-- Every word the row matches is the word of the well-formed instruction the row builds from it. -/
def Row.Inverts (r : Row) : Prop :=
  ∀ w, w &&& r.mask = r.pattern → (r.build w).wf = true ∧ encode (r.build w) = w

theorem rowsUpper_invert : ∀ r ∈ rowsUpper, r.Inverts := by
  refine List.forall_iff_forall_mem.mp ⟨?lui, ?auipc⟩ <;>
    exact fun _ h => ⟨rfl, encodeU_of_mask h rfl⟩

theorem rowsJump_invert : ∀ r ∈ rowsJump, r.Inverts :=
  List.forall_iff_forall_mem.mp
    ⟨fun w h => ⟨evenOffset_immJField w, encodeJ_of_mask h rfl⟩, fun _ h => ⟨rfl, encodeI_of_mask h rfl rfl⟩⟩

theorem rowsBranch_invert : ∀ r ∈ rowsBranch, r.Inverts := by
  refine List.forall_iff_forall_mem.mp ⟨?beq, ?bne, ?blt, ?bge, ?bltu, ?bgeu⟩ <;>
    exact fun w h => ⟨evenOffset_immBField w, encodeB_of_mask h rfl rfl⟩

theorem rowsLoad_invert : ∀ r ∈ rowsLoad, r.Inverts := by
  refine List.forall_iff_forall_mem.mp ⟨?lb, ?lh, ?lw, ?lbu, ?lhu⟩ <;>
    exact fun _ h => ⟨rfl, encodeI_of_mask h rfl rfl⟩

theorem rowsStore_invert : ∀ r ∈ rowsStore, r.Inverts := by
  refine List.forall_iff_forall_mem.mp ⟨?sb, ?sh, ?sw⟩ <;>
    exact fun _ h => ⟨rfl, encodeS_of_mask h rfl rfl⟩

theorem rowsAluImm_invert : ∀ r ∈ rowsAluImm, r.Inverts := by
  refine List.forall_iff_forall_mem.mp ⟨?addi, ?slti, ?sltiu, ?xori, ?ori, ?andi, ?slli, ?srli, ?srai⟩
  case slli | srli | srai => exact fun _ h => ⟨rfl, encodeR_of_mask h rfl rfl rfl⟩
  all_goals exact fun _ h => ⟨rfl, encodeI_of_mask h rfl rfl⟩

theorem rowsAluReg_invert : ∀ r ∈ rowsAluReg, r.Inverts := by
  refine List.forall_iff_forall_mem.mp ⟨?add, ?sub, ?sll, ?slt, ?sltu, ?xor, ?srl, ?sra, ?or, ?and⟩ <;>
    exact fun _ h => ⟨rfl, encodeR_of_mask h rfl rfl rfl⟩

theorem rowsFence_invert : ∀ r ∈ rowsFence, r.Inverts :=
  List.forall_iff_forall_mem.mp
    ⟨fun w h => ⟨rfl, (congrArg (encodeI · _ _ _ _) (fenceFields_eq_immIField w)).trans (encodeI_of_mask h rfl rfl)⟩,
      fun _ h => ⟨rfl, encodeI_of_mask h rfl rfl⟩⟩

theorem rowsSystem_invert : ∀ r ∈ rowsSystem, r.Inverts := by
  refine List.forall_iff_forall_mem.mp
    ⟨?ecall, ?ebreak, ?mret, ?sret, ?wfi, ?sfenceVma, ?csrrw, ?csrrs, ?csrrc, ?csrrwi, ?csrrsi, ?csrrci⟩
  case ecall | ebreak | mret | sret | wfi => exact fun _ h => ⟨rfl, h.symm.trans BitVec.and_allOnes⟩
  case sfenceVma => exact fun _ h => ⟨rfl, encodeSfence_of_mask h⟩
  all_goals exact fun _ h => ⟨rfl, encodeI_of_mask h rfl rfl⟩

/-- No row of the table drops a bit of a word (R98). -/
theorem decodeTable_inverts : ∀ r ∈ decodeTable, r.Inverts := by
  simp only [decodeTable, List.forall_mem_append]
  exact ⟨⟨⟨⟨⟨⟨⟨⟨rowsUpper_invert, rowsJump_invert⟩, rowsBranch_invert⟩, rowsLoad_invert⟩, rowsStore_invert⟩,
    rowsAluImm_invert⟩, rowsAluReg_invert⟩, rowsFence_invert⟩, rowsSystem_invert⟩

/-- Settles O2: the instruction was built by a row that matches the word, and every row inverts. -/
theorem decodeThenEncodeGivesTheWordBack : Obligations.DecodeThenEncodeGivesTheWordBack := by
  intro w i h
  obtain ⟨r, hr, hm, rfl⟩ := decode_eq_some h
  exact decodeTable_inverts r hr w hm

/-! ### The rows of the table -/

/-- One word, one row: both are the row the decoder finds (R98). -/
theorem row_unique {r q : Row} {w : Word} (hr : r ∈ decodeTable) (hq : q ∈ decodeTable)
    (hwr : w &&& r.mask = r.pattern) (hwq : w &&& q.mask = q.pattern) : r = q :=
  Option.some.inj
    ((find_of_disjoint decodeTable_disjoint hr hwr).symm.trans (find_of_disjoint decodeTable_disjoint hq hwq))

/-- The decoder's table is spec/opcode_table.json, row by row. -/
theorem opcodeTableRows_eq : opcodeTableRows = decodeTable.map fun r => (r.mask, r.pattern) := rfl

theorem exists_row_of_mem {p : Word × Word} (hp : p ∈ opcodeTableRows) :
    ∃ r ∈ decodeTable, (r.mask, r.pattern) = p :=
  List.mem_map.mp (opcodeTableRows_eq ▸ hp)

/-- Disjoint rows differ in their patterns. -/
theorem opcodeTableRows_nodup : opcodeTableRows.Nodup := by
  rw [opcodeTableRows_eq, List.Nodup, List.pairwise_map]
  refine decodeTable_disjoint.imp fun hd heq => hd ?_
  rw [(Prod.mk.inj heq).2, BitVec.xor_self]
  exact BitVec.zero_and

/-- Settles O3: the decoder's table has these rows, and a word has one row in it. -/
theorem opcodeRowsDoNotOverlap : Obligations.OpcodeRowsDoNotOverlap := by
  refine ⟨?_, opcodeTableRows_nodup, rfl, ?_⟩
  · intro w p hp q hq hwp hwq
    obtain ⟨r, hr, rfl⟩ := exists_row_of_mem hp
    obtain ⟨s, hs, rfl⟩ := exists_row_of_mem hq
    rw [row_unique hr hs hwp hwq]
  · intro w p hp hw
    obtain ⟨r, hr, rfl⟩ := exists_row_of_mem hp
    exact ⟨r.build w, decode_of_row hr hw⟩

/-! ### Reserved encodings -/

/-- The row requires one value of the field `bits[hi:lo]`. -/
abbrev Row.Fixes (r : Row) (hi lo : Nat) : Prop := bits r.mask hi lo = BitVec.allOnes _

/-- Every row fixes the major opcode (R97). -/
theorem opcode_of_matches {r : Row} {w : Word} (hr : r ∈ decodeTable) (hw : w &&& r.mask = r.pattern) :
    bits w 6 0 = bits r.pattern 6 0 := by
  have hfix : ∀ r ∈ decodeTable, r.Fixes 6 0 := by decide
  exact bits_eq_of_mask hw (hfix r hr)

section
variable {w : Word} {hi lo : Nat} {P : BitVec (hi - lo + 1) → Prop} {op : BitVec 7}

/-- A word is unknown if a field of it has a value that no row gives the field. -/
theorem decode_eq_none_of_field (hrows : ∀ r ∈ decodeTable, r.Fixes hi lo ∧ ¬ P (bits r.pattern hi lo))
    (hP : P (bits w hi lo)) : decode w = none := by
  refine (decode_eq_none_iff w).mpr fun r hr hw => ?_
  obtain ⟨hfix, hnot⟩ := hrows r hr
  exact hnot (bits_eq_of_mask hw hfix ▸ hP)

/-- A word is unknown if a field of it has a value that no row of its opcode gives the field. -/
theorem decode_eq_none_of_opcode_field
    (hrows : ∀ r ∈ decodeTable, bits r.pattern 6 0 = op → r.Fixes hi lo ∧ ¬ P (bits r.pattern hi lo))
    (hop : bits w 6 0 = op) (hP : P (bits w hi lo)) : decode w = none := by
  refine (decode_eq_none_iff w).mpr fun r hr hw => ?_
  obtain ⟨hfix, hnot⟩ := hrows r hr ((opcode_of_matches hr hw).symm.trans hop)
  exact hnot (bits_eq_of_mask hw hfix ▸ hP)

/-- A word is unknown if a field of it has a value that no row of its opcode and of such a funct3 gives the field. -/
theorem decode_eq_none_of_funct3_field {Q : BitVec 3 → Prop}
    (hrows : ∀ r ∈ decodeTable, bits r.pattern 6 0 = op → r.Fixes 14 12 ∧
      (Q (bits r.pattern 14 12) → r.Fixes hi lo ∧ ¬ P (bits r.pattern hi lo)))
    (hop : bits w 6 0 = op) (hQ : Q (bits w 14 12)) (hP : P (bits w hi lo)) : decode w = none := by
  refine (decode_eq_none_iff w).mpr fun r hr hw => ?_
  obtain ⟨hfix3, hrow⟩ := hrows r hr ((opcode_of_matches hr hw).symm.trans hop)
  obtain ⟨hfix, hnot⟩ := hrow (bits_eq_of_mask hw hfix3 ▸ hQ)
  exact hnot (bits_eq_of_mask hw hfix ▸ hP)

/-- The rows of SYSTEM with funct3 000 are the five that name a whole word, and SFENCE.VMA (R265). -/
theorem decode_eq_none_of_system_funct3_zero (hop : bits w 6 0 = 0x73#7) (h3 : bits w 14 12 = 0#3)
    (hw : w ∉ [0x00000073#32, 0x00100073#32, 0x10200073#32, 0x30200073#32, 0x10500073#32])
    (hsfence : ¬ (bits w 31 25 = 9#7 ∧ bits w 11 7 = 0#5)) : decode w = none := by
  have hrows : ∀ r ∈ decodeTable, bits r.pattern 6 0 = 0x73#7 → r.Fixes 14 12 ∧ (bits r.pattern 14 12 = 0#3 →
      (r.mask = BitVec.allOnes 32 ∧
        r.pattern ∈ [0x00000073#32, 0x00100073#32, 0x10200073#32, 0x30200073#32, 0x10500073#32]) ∨
      (r.Fixes 31 25 ∧ bits r.pattern 31 25 = 9#7) ∧ r.Fixes 11 7 ∧ bits r.pattern 11 7 = 0#5) := by decide
  refine (decode_eq_none_iff w).mpr fun r hr hm => ?_
  obtain ⟨hfix3, hrow⟩ := hrows r hr ((opcode_of_matches hr hm).symm.trans hop)
  rcases hrow ((bits_eq_of_mask hm hfix3).symm.trans h3) with ⟨hmask, hmem⟩ | ⟨⟨hfix7, h7⟩, hfixrd, hrd⟩
  · rw [hmask, BitVec.and_allOnes] at hm
    exact hw (hm ▸ hmem)
  · exact hsfence ⟨(bits_eq_of_mask hm hfix7).trans h7, (bits_eq_of_mask hm hfixrd).trans hrd⟩

end

/-- Settles O5: each clause names a value of a field that no row in question has. -/
theorem reservedEncodingsAreUnknown : Obligations.ReservedEncodingsAreUnknown := by
  refine ⟨?low, ?opcode, ?jalr, ?branch, ?load, ?store, ?slli, ?srli, ?op, ?opAlt, ?system4, ?system0, ?miscMem⟩
  case low => exact fun _ => decode_eq_none_of_field (P := (· ≠ 0b11)) (by decide)
  case opcode =>
    exact fun _ => decode_eq_none_of_field
      (P := (· ∉ [0x03, 0x0F, 0x13, 0x17, 0x23, 0x33, 0x37, 0x63, 0x67, 0x6F, 0x73])) (by decide)
  case jalr => exact fun _ => decode_eq_none_of_opcode_field (P := (· ≠ 0)) (by decide)
  case branch => exact fun _ => decode_eq_none_of_opcode_field (P := (· ∈ [2, 3])) (by decide)
  case load => exact fun _ => decode_eq_none_of_opcode_field (P := (· ∈ [3, 6, 7])) (by decide)
  case store => exact fun _ => decode_eq_none_of_opcode_field (P := (· ∈ [3, 4, 5, 6, 7])) (by decide)
  case slli => exact fun _ => decode_eq_none_of_funct3_field (Q := (· = 1)) (P := (· ≠ 0)) (by decide)
  case srli => exact fun _ => decode_eq_none_of_funct3_field (Q := (· = 5)) (P := (· ∉ [0, 0x20])) (by decide)
  case op => exact fun _ => decode_eq_none_of_opcode_field (P := (· ∉ [0, 0x20])) (by decide)
  case opAlt =>
    exact fun _ hop h7 h3 =>
      decode_eq_none_of_funct3_field (Q := (· ∉ [0, 5])) (P := (· = 0x20)) (by decide) hop h3 h7
  case system4 => exact fun _ => decode_eq_none_of_opcode_field (P := (· = 4)) (by decide)
  case system0 => exact fun _ => decode_eq_none_of_system_funct3_zero
  case miscMem => exact fun _ => decode_eq_none_of_opcode_field (P := (· ∉ [0, 1])) (by decide)

/-! ### Ignored fields -/

/-- The rows whose operands are all ignored: FENCE, FENCE.I, SFENCE.VMA and the six CSR instructions (R100). -/
def ignoringRows : List Row := rowsFence ++ rowsSystem.drop 5

theorem mem_decodeTable_of_ignoring {r : Row} (h : r ∈ ignoringRows) : r ∈ decodeTable := by
  simp only [decodeTable, List.mem_append]
  rcases List.mem_append.mp h with hf | hs
  · exact .inl (.inr hf)
  · exact .inr (List.mem_of_mem_drop hs)

/-- Whatever word such a row matches, the meaning is to go on at `pc + 4` (R257 to R264, R270, R271). -/
theorem exec_of_ignoring : ∀ r ∈ ignoringRows, ∀ w s, exec (r.build w) s = advanceOnly s := by
  refine List.forall_iff_forall_mem.mp
    ⟨?fence, ?fenceI, ?sfenceVma, ?csrrw, ?csrrs, ?csrrc, ?csrrwi, ?csrrsi, ?csrrci⟩ <;>
    exact fun _ _ => rfl

/-- Two words of one such row do the same in every state (R100). -/
theorem same_row_same_effect {m p : Word} (h : ∃ r ∈ ignoringRows, r.mask = m ∧ r.pattern = p) {w w' : Word}
    (hw : w &&& m = p) (hw' : w' &&& m = p) :
    ∃ r ∈ decodeTable, decode w = some (r.build w) ∧ decode w' = some (r.build w') ∧
      ∀ s, exec (r.build w) s = exec (r.build w') s := by
  obtain ⟨r, hr, rfl, rfl⟩ := h
  have ht := mem_decodeTable_of_ignoring hr
  exact ⟨r, ht, decode_of_row ht hw, decode_of_row ht hw', fun s =>
    (exec_of_ignoring r hr w s).trans (exec_of_ignoring r hr w' s).symm⟩

/-- The eight rows that fix opcode and funct3 alone. -/
theorem exists_ignoringRow : ∀ p ∈ [0x0000000F#32, 0x0000100F#32, 0x00001073#32, 0x00002073#32, 0x00003073#32,
    0x00005073#32, 0x00006073#32, 0x00007073#32], ∃ r ∈ ignoringRows, r.mask = 0x707F ∧ r.pattern = p := by
  simp [ignoringRows, rowsFence, rowsSystem]

theorem exists_sfenceRow : ∃ r ∈ ignoringRows, r.mask = 0xFE007FFF ∧ r.pattern = 0x12000073 := by
  simp [ignoringRows, rowsFence, rowsSystem]

/-- Settles O6: the two words match one row, and the row's instruction only advances. -/
theorem ignoredFieldsDoNotMatter : Obligations.IgnoredFieldsDoNotMatter :=
  ⟨fun _ _ he hp => same_row_same_effect (exists_ignoringRow _ hp) rfl he.symm,
    fun _ _ hw hw' => same_row_same_effect exists_sfenceRow hw hw'⟩

/-! ### The bits of an immediate -/

/-- From its top bit upwards a sign-extended field repeats that bit (R17). -/
theorem getLsbD_signExtend_word {n : Nat} (x : BitVec n) {j : Nat} (hj : j < 32) :
    (x.signExtend 32).getLsbD j = x.getLsbD (min j (n - 1)) := by
  rw [BitVec.getLsbD_signExtend, decide_eq_true hj, Bool.true_and]
  split
  · rw [Nat.min_eq_left (by omega)]
  · rw [Nat.min_eq_right (by omega), BitVec.msb_eq_getLsbD_last]

theorem getLsbD_immIField (w : Word) {i : Nat} (hi : i < 12) : (immIField w).getLsbD i = w.getLsbD (20 + i) := by
  rw [immIField, bits_bit, decide_eq_true hi, Bool.true_and]

theorem getLsbD_immSField (w : Word) {i : Nat} (hi : i < 12) :
    (immSField w).getLsbD i = w.getLsbD (if i < 5 then 7 + i else 20 + i) := by
  interval_cases i <;> simp only [immSField_bit, bits_bit] <;> rfl

theorem getLsbD_immBField (w : Word) {i : Nat} (hi : i < 13) :
    (immBField w).getLsbD i = if i = 0 then false else
      w.getLsbD (if i < 5 then 7 + i else if i < 11 then 20 + i else if i = 11 then 7 else 31) := by
  interval_cases i <;> simp only [immBField_bit, bits_bit] <;> rfl

theorem getLsbD_immJField (w : Word) {i : Nat} (hi : i < 21) :
    (immJField w).getLsbD i = if i = 0 then false else
      w.getLsbD (if i < 11 then 20 + i else if i = 11 then 20 else if i < 20 then i else 31) := by
  interval_cases i <;> simp only [immJField_bit, bits_bit] <;> rfl

/-- imm_I bit by bit (R90). -/
theorem getLsbD_immI (w : Word) {j : Nat} (hj : j < 32) :
    (immI (immIField w)).getLsbD j = w.getLsbD (if j < 11 then 20 + j else 31) := by
  rw [immI_eq_signExtend, getLsbD_signExtend_word _ hj, getLsbD_immIField w (by omega)]
  congr 1
  split_ifs <;> omega

/-- imm_S bit by bit (R91). -/
theorem getLsbD_immS (w : Word) {j : Nat} (hj : j < 32) :
    (immS (immSField w)).getLsbD j = w.getLsbD (if j < 5 then 7 + j else if j < 11 then 20 + j else 31) := by
  rw [immS_eq_signExtend, getLsbD_signExtend_word _ hj, getLsbD_immSField w (by omega)]
  congr 1
  split_ifs <;> omega

/-- imm_B bit by bit (R92). -/
theorem getLsbD_immB (w : Word) {j : Nat} (hj : j < 32) :
    (immB (immBField w)).getLsbD j = if j = 0 then false else
      w.getLsbD (if j < 5 then 7 + j else if j < 11 then 20 + j else if j = 11 then 7 else 31) := by
  rw [immB_eq_signExtend, getLsbD_signExtend_word _ hj, getLsbD_immBField w (by omega)]
  grind

/-- imm_J bit by bit (R94). -/
theorem getLsbD_immJ (w : Word) {j : Nat} (hj : j < 32) :
    (immJ (immJField w)).getLsbD j = if j = 0 then false else
      w.getLsbD (if j < 11 then 20 + j else if j = 11 then 20 else if j < 20 then j else 31) := by
  rw [immJ_eq_signExtend, getLsbD_signExtend_word _ hj, getLsbD_immJField w (by omega)]
  grind

/-- imm_U bit by bit (R93). -/
theorem getLsbD_immU (w : Word) {j : Nat} (hj : j < 32) :
    (immU (immUField w)).getLsbD j = (decide (12 ≤ j) && w.getLsbD j) := by
  show BitVec.getLsbD (w := 20 + 12) (bits w 31 12 ++ 0#12) j = _
  rw [BitVec.getLsbD_append]
  by_cases h : j < 12
  · simp [h]
  · rw [if_neg h, bits_bit, decide_eq_true (by omega), decide_eq_true (by omega), Nat.add_sub_cancel' (by omega)]

/-! ### The range of an immediate -/

theorem signExtend_toInt_range {n : Nat} (x : BitVec (n + 1)) (hn : n + 1 ≤ 32) :
    -2 ^ n ≤ (x.signExtend 32).toInt ∧ (x.signExtend 32).toInt < 2 ^ n := by
  rw [BitVec.toInt_signExtend_of_le hn]
  exact ⟨BitVec.le_toInt x, BitVec.toInt_lt⟩

/-- An even offset is an even number, with its sign too (R92, R94). -/
theorem signExtend_toInt_emod_two {n : Nat} {x : BitVec (n + 1)} (hn : n + 1 ≤ 32) (h : evenOffset x = true) :
    (x.signExtend 32).toInt % 2 = 0 := by
  have h0 : x.toNat % 2 = 0 := by simpa [evenOffset, BitVec.getLsbD, Nat.testBit_zero] using h
  rw [BitVec.toInt_signExtend_of_le hn, BitVec.toInt_eq_toNat_cond, Nat.pow_succ]
  split <;> omega

/-- The range of imm_I (R90). -/
theorem immI_range (i : BitVec 12) : -2048 ≤ (immI i).toInt ∧ (immI i).toInt ≤ 2047 := by
  have hrange := signExtend_toInt_range i (by omega)
  rw [immI_eq_signExtend]
  omega

/-- The range of imm_S (R91). -/
theorem immS_range (i : BitVec 12) : -2048 ≤ (immS i).toInt ∧ (immS i).toInt ≤ 2047 := immI_range i

/-- The range of imm_B: the largest even offset is one below the largest of the width (R92). -/
theorem immB_range {i : BitVec 13} (h : evenOffset i = true) : -4096 ≤ (immB i).toInt ∧ (immB i).toInt ≤ 4094 := by
  have hrange := signExtend_toInt_range i (by omega)
  have heven := signExtend_toInt_emod_two (by omega) h
  rw [immB_eq_signExtend]
  omega

/-- The range of imm_J: as for imm_B, with 21 bits (R94). -/
theorem immJ_range {i : BitVec 21} (h : evenOffset i = true) :
    -1048576 ≤ (immJ i).toInt ∧ (immJ i).toInt ≤ 1048574 := by
  have hrange := signExtend_toInt_range i (by omega)
  have heven := signExtend_toInt_emod_two (by omega) h
  rw [immJ_eq_signExtend]
  omega

/-- Bit 31 is the sign of a word (R16). -/
theorem toInt_neg_iff_sign_bit (w : Word) : w.toInt < 0 ↔ w.getLsbD 31 = true := by
  rw [← decide_eq_true_iff (p := w.toInt < 0), ← BitVec.msb_eq_toInt, BitVec.msb_eq_getLsbD_last]

/-- Settles O9: the bits and the range of each format's immediate. -/
theorem immediatesAreAssembledBitByBit : Obligations.ImmediatesAreAssembledBitByBit := by
  intro w
  refine ⟨⟨fun _ => getLsbD_immI w, immI_range _⟩, ⟨fun _ => getLsbD_immS w, immS_range _⟩,
    ⟨fun _ => getLsbD_immB w, immB_range (evenOffset_immBField w)⟩, ⟨fun _ => getLsbD_immU w, ?_, ?_⟩,
    ⟨fun _ => getLsbD_immJ w, immJ_range (evenOffset_immJField w)⟩⟩
  · rw [immU_toNat, Nat.mul_mod_left]
  · rw [toInt_neg_iff_sign_bit, getLsbD_immU w (by omega), decide_eq_true (by omega), Bool.true_and]

end Sys2Proof
end

section
/-!
PROOFS. The host's accesses to registers and memory between steps (40_execution_cycle.md R136, R138, R141).
-/
namespace Sys2Proof.Machine

/-! ### The register accessors -/

/-- The register that an index 0 to 31 of the accessors names (R138). -/
def indexReg (i : Fin 33) : Reg := BitVec.ofNat 5 i.val

theorem indexReg_inj {i j : Fin 33} (hi : i ≠ 32) (hj : j ≠ 32) : indexReg i = indexReg j ↔ i = j := by
  refine ⟨fun h => ?_, congrArg indexReg⟩
  have hmod : i.val % 2 ^ 5 = j.val % 2 ^ 5 := by simpa [indexReg] using congrArg BitVec.toNat h
  omega

theorem readIndex_pc (s : State) : readIndex s 32 = s.pc := rfl

theorem readIndex_reg (s : State) {i : Fin 33} (h : i ≠ 32) : readIndex s i = s.readReg (indexReg i) :=
  if_neg fun e => h (Fin.ext e)

theorem writeIndex_pc (s : State) (v : Nat) : writeIndex s 32 v = s.setPc (BitVec.ofNat 32 v) := rfl

theorem writeIndex_reg (s : State) {i : Fin 33} (v : Nat) (h : i ≠ 32) :
    writeIndex s i v = s.writeReg (indexReg i) (BitVec.ofNat 32 v) :=
  if_neg fun e => h (Fin.ext e)

/-- What index `j` reads after a write to index `i`: by whether each of them is the program counter (R138). -/
theorem readIndex_writeIndex (s : State) (i j : Fin 33) (v : Nat) :
    readIndex (writeIndex s i v) j = if j = i ∧ i ≠ 0 then BitVec.ofNat 32 v else readIndex s j := by
  by_cases hi : i = 32
  · subst hi
    by_cases hj : j = 32
    · rw [hj, if_pos ⟨rfl, by decide⟩]
      rfl
    · rw [if_neg fun h => hj h.1, readIndex_reg _ hj, readIndex_reg _ hj, writeIndex_pc, State.readReg_setPc]
  · rw [writeIndex_reg s v hi]
    by_cases hj : j = 32
    · subst hj
      rw [if_neg fun h => hi h.1.symm, readIndex_pc, readIndex_pc, State.writeReg_pc]
    · have hz : indexReg i ≠ 0 ↔ i ≠ 0 := (indexReg_inj hi (j := 0) (by decide)).not
      rw [readIndex_reg _ hj, readIndex_reg _ hj, State.readReg_writeReg]
      simp only [indexReg_inj hj hi, hz]

/-- A write through the accessors changes nothing but a register or the program counter (R138). -/
theorem writeIndex_frame (s : State) (i : Fin 33) (v : Nat) :
    (writeIndex s i v).mem = s.mem ∧ (writeIndex s i v).status = s.status ∧ (writeIndex s i v).entry = s.entry ∧
      (writeIndex s i v).cfg = s.cfg := by
  by_cases h : i = 32
  · subst h
    exact ⟨rfl, rfl, rfl, rfl⟩
  · rw [writeIndex_reg s v h]
    exact ⟨s.writeReg_mem .., s.writeReg_status .., s.writeReg_entry .., s.writeReg_cfg ..⟩

/-- The index of a general register reads that register (R138). -/
theorem readIndex_of_eq_toNat (s : State) {r : Reg} {i : Fin 33} (h : i.val = r.toNat) :
    readIndex s i = s.readReg r := by
  have hr : indexReg i = r := by rw [indexReg, h, BitVec.ofNat_toNat, BitVec.setWidth_eq]
  have hi : i ≠ 32 := by
    rintro rfl
    exact absurd r.isLt (by rw [← h]; decide)
  rw [readIndex_reg s hi, hr]

/-- Settles O14: the read after a write, the frame, and what each index names. -/
theorem registerAccessorsReadBackWhatIsWritten : Obligations.RegisterAccessorsReadBackWhatIsWritten := by
  refine ⟨fun s i j v => ?_, fun s i v => ?_, fun s _ _ h => readIndex_of_eq_toNat s h, fun _ => ⟨rfl, rfl⟩,
    fun _ _ => rfl, fun _ _ => rfl⟩
  · rw [readIndex_writeIndex, ← BitVec.toNat_ofNat, BitVec.ofNat_toNat, BitVec.setWidth_eq]
  · obtain ⟨hmem, hrest⟩ := writeIndex_frame s i v
    exact ⟨fun _ => by rw [hmem], hrest⟩

/-! ### load_segment and read_memory -/

/-- A segment that fits is written (R63, R136). -/
theorem loadSegment_of_inWindow {s : State} {addr : Word} {payload : List Byte}
    (h : InWindow s.cfg addr.toNat payload.length) :
    loadSegment addr payload s = .ok (s.setMem (s.mem.writeBytes addr.toNat payload)) :=
  if_pos ((inBounds_iff ..).mpr h)

/-- A segment that does not fit is a bounds error (R136, R301). -/
theorem loadSegment_of_not_inWindow {s : State} {addr : Word} {payload : List Byte}
    (h : ¬ InWindow s.cfg addr.toNat payload.length) : loadSegment addr payload s = .error .bounds :=
  if_neg fun hb => h ((inBounds_iff ..).mp hb)

/-- Settles O18: the segment write puts the payload in its place and leaves every other byte alone. -/
theorem loadSegmentWritesAllOrNothing : Obligations.LoadSegmentWritesAllOrNothing := by
  refine fun s addr payload => ⟨fun h => ⟨_, loadSegment_of_inWindow h, ?_, ?_, ?_⟩, loadSegment_of_not_inWindow⟩
  · exact fun hwf i hi => Memory.read_writeBytes_same hwf addr.toNat hi
  · exact fun a ha => Memory.read_writeBytes_other s.mem payload ha
  · exact ⟨fun _ => rfl, rfl, rfl, rfl, rfl⟩

/-- Bytes that lie in the window are read (R141). -/
theorem readMemory_of_inWindow {s : State} {addr : Word} {n : Nat} (h : InWindow s.cfg addr.toNat n) :
    readMemory s addr n = .ok (s.mem.readBytes addr.toNat n) :=
  if_pos ((inBounds_iff ..).mpr h)

/-- A read of other bytes is a bounds error (R141). -/
theorem readMemory_of_not_inWindow {s : State} {addr : Word} {n : Nat} (h : ¬ InWindow s.cfg addr.toNat n) :
    readMemory s addr n = .error .bounds :=
  if_neg fun hb => h ((inBounds_iff ..).mp hb)

/-- Settles O19: the bytes read are those of the memory, each at its place. -/
theorem readMemoryReturnsTheBytes : Obligations.ReadMemoryReturnsTheBytes := fun s _ n =>
  ⟨fun h => ⟨_, readMemory_of_inWindow h, s.mem.length_readBytes _ n, fun _ hi => s.mem.getElem_readBytes _ n hi⟩,
    readMemory_of_not_inWindow⟩

end Sys2Proof.Machine
end

section
/-!
PROOFS. The step (40_execution_cycle.md R121 to R128): its three ends, what each leaves alone, and the next program
counter.
-/
namespace Sys2Proof.Machine

/-! ### The ends of a step -/

/-- The statuses with which a step taken from `s` ends the run: a halt, or a fatal error of the step's own pc (R122). -/
inductive EndStatus (s : State) : Status → Prop where
  | success : EndStatus s .haltedSuccess
  | failure (code : Word) : EndStatus s (.haltedFailure code)
  | fatal {info : FatalInfo} (hpc : info.pc = s.pc) : EndStatus s (.fatal info)

theorem EndStatus.ne_running {s : State} {st : Status} (h : EndStatus s st) : st ≠ .running := by
  cases h <;> exact nofun

/-- A fatal error names the address of its step's instruction (R125). -/
theorem EndStatus.pc_of_fatal {s : State} {info : FatalInfo} (h : EndStatus s (.fatal info)) : info.pc = s.pc := by
  cases h with
  | fatal hpc => exact hpc

/-- An instruction ends the run with a halt or a fatal error of its own pc (R250 to R253, R283). -/
theorem EndCause.endStatus {s : State} {i : Instr} {st : Status} (h : EndCause s i st) : EndStatus s st := by
  cases h with
  | exitSuccess => exact .success
  | exitFailure => exact .failure _
  | loadOut | storeOut | unsupportedCall | breakpoint => exact .fatal rfl

/-- An instruction executed in a running state lets the run go on, or sets the status alone (R127). -/
theorem exec_runs_or_ends {i : Instr} {s t : State} (hrun : s.status = .running) (h : exec i s = .next t) :
    t.status = .running ∨ ∃ st, EndStatus s st ∧ t = s.setStatus st := by
  cases exec_cases h with
  | writes v target => exact .inl ((continueWith_writesReg _ v target s).status.trans hrun)
  | continues | stores => exact .inl hrun
  | ends hc => exact .inr ⟨_, hc.endStatus, rfl⟩

/-- The step of an unknown word raises at the program counter (R284). -/
theorem step_of_unknown {s : State} {w : Word} (h : s.status = .running) (hw : fetchWord s = some w)
    (hd : decode w = none) :
    step s = .next (s.setStatus (.fatal { kind := .unknownInstruction, pc := s.pc, word := some w })) := by
  simp only [step, h, hw, hd, raise_eq]

/-- Only a running state steps (R121). -/
theorem running_of_step {s t : State} (h : step s = .next t) : s.status = .running := by
  by_contra hrun
  rw [step_of_not_running hrun] at h
  cases h

/-- A step lets the run go on, or sets the status alone, to a halt or a fatal error of its own pc (R127). -/
theorem step_runs_or_ends {s t : State} (h : step s = .next t) :
    t.status = .running ∨ ∃ st, EndStatus s st ∧ t = s.setStatus st := by
  have hrun := running_of_step h
  rcases step_running hrun with ⟨-, e⟩ | ⟨w, -, -, e⟩ | ⟨w, i, -, -, e⟩ <;> rw [e] at h
  · cases h
    exact .inr ⟨_, .fatal rfl, rfl⟩
  · cases h
    exact .inr ⟨_, .fatal rfl, rfl⟩
  · exact exec_runs_or_ends hrun h

/-- Settles O33: by the three outcomes of fetch and decode. -/
theorem stepRunsTheDecodedInstruction : Obligations.StepRunsTheDecodedInstruction := fun s hrun =>
  ⟨fun _ _ hw hi => step_of_decode hrun hw hi,
    fun _ hw hd => ⟨_, step_of_unknown hrun hw hd, setStatus_setsStatus s _⟩,
    fun hw => ⟨_, step_of_no_fetch hrun hw, setStatus_setsStatus s _⟩⟩

/-- Settles O38: a running state has a step, which lets the run go on or ends it with the status alone changed. -/
theorem stepEndsInOneOfThreeWays : Obligations.StepEndsInOneOfThreeWays := by
  intro s hrun
  obtain ⟨t, ht⟩ := step_total hrun
  refine ⟨t, ht, ?_⟩
  rcases step_runs_or_ends ht with hgo | ⟨st, hst, rfl⟩
  · exact .inl hgo
  · have hset := setStatus_setsStatus s st
    cases hst with
    | success => exact .inr (.inl hset)
    | failure code => exact .inr (.inr (.inl ⟨code, hset⟩))
    | fatal => exact .inr (.inr (.inr ⟨_, hset⟩))

/-! ### The program counter -/

/-- A branch whose condition fails goes on at pc + 4 (R216). -/
theorem branchIf_pc_of_not {cond : Bool} {off : BitVec 13} {s t : State} (h : branchIf cond off s = .next t)
    (hc : cond = false) : t.pc = nextPc s := by
  cases h
  rw [hc]
  rfl

/-- Without a target of its own, an instruction that lets the run go on advances to pc + 4 (R124). -/
theorem exec_pc_of_not_control {i : Instr} {s t : State} (hi : isControl i = false) (h : exec i s = .next t)
    (hrun : t.status = .running) : t.pc = nextPc s := by
  cases exec_cases h with
  | writes _ _ _ _ hc => exact hc hi
  | continues _ _ _ hc => exact hc hi
  | stores => rfl
  | ends hc => exact absurd hrun hc.endStatus.ne_running

/-- An instruction that does not replace pc and lets the run go on advances to pc + 4: a branch because its condition
fails, any other because it has no target (R124). -/
theorem exec_pc_of_not_replaces {i : Instr} {s t : State} (h : exec i s = .next t) (hrun : t.status = .running)
    (hr : ¬ ReplacesPc i s) : t.pc = nextPc s := by
  cases i
  case jal | jalr => exact absurd trivial hr
  case beq => exact branchIf_pc_of_not h (beq_eq_false_iff_ne.mpr hr)
  case bne => exact branchIf_pc_of_not h (by simpa [ReplacesPc] using hr)
  case blt => exact branchIf_pc_of_not h (by simpa [ltSigned, ReplacesPc] using hr)
  case bge => exact branchIf_pc_of_not h (by simpa [ltSigned, ReplacesPc] using hr)
  case bltu => exact branchIf_pc_of_not h (by simpa [ltUnsigned, ReplacesPc] using hr)
  case bgeu => exact branchIf_pc_of_not h (by simpa [ltUnsigned, ReplacesPc] using hr)
  all_goals exact exec_pc_of_not_control rfl h hrun

/-- Settles O39: a step that lets the run go on advances unless it replaces pc, and one that ends sets the status alone. -/
theorem pcAdvancesByFourUnlessReplaced : Obligations.PcAdvancesByFourUnlessReplaced := by
  refine fun i s t hrun h => ⟨exec_pc_of_not_replaces h, fun hend => ?_⟩
  rcases exec_runs_or_ends hrun h with hgo | ⟨st, -, rfl⟩
  · exact absurd hgo hend
  · rfl

end Sys2Proof.Machine
end

section
/-!
PROOFS. The host's step(), run() and continue_run() (40_execution_cycle.md R130 to R132, R137, R139), and that every
operation of the host keeps the invariant.
-/
namespace Sys2Proof.Machine

/-! ### step() -/

/-- step() takes one step of a running state (R139). -/
theorem hostStep_of_running {s t : State} (h : s.status = .running) (ht : step s = .next t) :
    hostStep s = (t, .record (runningRecord s)) := by
  simp only [hostStep, stepRecord_eq, if_pos h, afterStep_of_next ht]

/-- step() does nothing from a terminal status (R139). -/
theorem hostStep_of_not_running {s : State} (h : s.status ≠ .running) : hostStep s = (s, .status s.status) := by
  simp only [hostStep, stepRecord_eq, if_neg h]

/-- No step writes the entry register (R35). -/
theorem step_entry {s t : State} (h : step s = .next t) : t.entry = s.entry := by
  rcases step_cases h with ⟨st, rfl⟩ | ⟨i, hi⟩
  · rfl
  · exact exec_entry hi

/-- Settles O35: by whether the state is running. -/
theorem hostStepTakesOneStep : Obligations.HostStepTakesOneStep := by
  refine fun s => ⟨fun hrun => ?_, hostStep_of_not_running⟩
  obtain ⟨t, ht⟩ := step_total hrun
  have hrec : stepRecord s = some (runningRecord s) := by rw [stepRecord_eq, if_pos hrun]
  exact ⟨t, _, ht, hrec, hostStep_of_running hrun ht, step_entry ht⟩

/-- Settles O41: a step that does not let the run go on sets the status alone, to a record of its own pc. -/
theorem fatalErrorsArePrecise : Obligations.FatalErrorsArePrecise := by
  intro s t info h hfatal
  have hterm : t.status ≠ .running := by rw [hfatal]; exact nofun
  rcases step_runs_or_ends h with hgo | ⟨st, hst, rfl⟩
  · exact absurd hgo hterm
  · rw [State.setStatus_status] at hfatal
    subst hfatal
    exact ⟨setStatus_setsStatus s _, hst.pc_of_fatal, hostStep_of_not_running hterm⟩

/-! ### run() and continue_run() -/

/-- A terminal status ends run() at once (R130). -/
theorem run_terminal {s : State} {r : RunResult} (h : resultOf s.status = some r) (stops : List Bool) :
    run stops s = (some r, s) := by
  simp only [run, h]

/-- Settles O45: each line of the two loops. -/
theorem runCopiesTheEntryAndLoops : Obligations.RunCopiesTheEntryAndLoops :=
  ⟨fun _ stops _ h => ⟨run_terminal h stops, continueRun_terminal h stops⟩, fun _ stops h => run_of_running h stops,
    fun _ rest h => continueRun_stop h rest, fun _ _ rest h ht => continueRun_step h ht rest⟩

/-- A terminal status stands for a result other than Stopped (R132). -/
theorem exists_resultOf {st : Status} (h : st ≠ .running) : ∃ r, r ≠ .stopped ∧ resultOf st = some r := by
  cases st with
  | running => exact absurd rfl h
  | haltedSuccess => exact ⟨.haltedSuccess, nofun, rfl⟩
  | haltedFailure code => exact ⟨.haltedFailure code, nofun, rfl⟩
  | fatal info => exact ⟨.fatalError info, nofun, rfl⟩

/-- Settles O34: every operation looks at the status first. -/
theorem noStepFromATerminalStatus : Obligations.NoStepFromATerminalStatus := by
  intro s h
  obtain ⟨r, hr, hres⟩ := exists_resultOf h
  exact ⟨step_of_not_running h, hostStep_of_not_running h, by rw [stepRecord_eq, if_neg h],
    fun stops => ⟨r, hr, run_terminal hres stops, continueRun_terminal hres stops⟩⟩

/-- A step whose fetch fails ends continue_run() with its error (R130, R282). -/
theorem continueRun_of_no_fetch {s : State} (hrun : s.status = .running) (hw : fetchWord s = none)
    (rest : List Bool) :
    continueRun (false :: rest) s =
      (some (.fatalError { kind := .outOfBounds .fetch s.pc, pc := s.pc, word := none }),
        s.setStatus (outOfBoundsStatus .fetch s.pc s.pc none)) := by
  rw [continueRun_step hrun (step_of_no_fetch hrun hw)]
  exact continueRun_terminal rfl rest

/-- Settles O36: run() goes on from `pc = a`, where the first fetch fails. -/
theorem setEntryIsCheckedByTheFirstFetch : Obligations.SetEntryIsCheckedByTheFirstFetch := by
  refine fun s a => ⟨rfl, fun _ => rfl, rfl, fun _ => rfl, rfl, rfl, fun hrun hout rest => ?_⟩
  have hrun' : ((setEntry a s).setPc a).status = .running := hrun
  have hw : fetchWord ((setEntry a s).setPc a) = none := fetchWord_of_not_inWindow hout
  have hresult : run (false :: rest) (setEntry a s) = _ :=
    (run_of_running (s := setEntry a s) hrun _).trans (continueRun_of_no_fetch hrun' hw rest)
  exact ⟨_, hresult, rfl, fun _ => rfl⟩

/-! ### The result of a run -/

/-- The result `r` is what the status stands for, or Stopped while it is still Running (R132). -/
def ResultMatches (r : RunResult) (st : Status) : Prop := resultOf st = some r ∨ (r = .stopped ∧ st = .running)

/-- The result that matches a status, by the kinds of results (R132). -/
theorem ResultMatches.cases {r : RunResult} {st : Status} (h : ResultMatches r st) :
    (r = .haltedSuccess ∧ st = .haltedSuccess) ∨ (∃ code, r = .haltedFailure code ∧ st = .haltedFailure code) ∨
      (∃ info, r = .fatalError info ∧ st = .fatal info) ∨ (r = .stopped ∧ st = .running) := by
  rcases h with h | h
  · cases st with
    | running => cases h
    | haltedSuccess => cases h; exact .inl ⟨rfl, rfl⟩
    | haltedFailure code => cases h; exact .inr (.inl ⟨code, rfl, rfl⟩)
    | fatal info => cases h; exact .inr (.inr (.inl ⟨info, rfl, rfl⟩))
  · exact .inr (.inr (.inr h))

/-- continue_run() is the terminal status's result, or Stopped, or one step and the rest of the samples (R130). -/
theorem continueRun_cases (stop : Bool) (rest : List Bool) (s : State) :
    (∃ r, resultOf s.status = some r ∧ continueRun (stop :: rest) s = (some r, s)) ∨
    (s.status = .running ∧ continueRun (stop :: rest) s = (some .stopped, s)) ∨
    (∃ t, step s = .next t ∧ continueRun (stop :: rest) s = continueRun rest t) := by
  by_cases hrun : s.status = .running
  · cases stop with
    | true => exact .inr (.inl ⟨hrun, continueRun_stop hrun rest⟩)
    | false =>
      obtain ⟨t, ht⟩ := step_total hrun
      exact .inr (.inr ⟨t, ht, continueRun_step hrun ht rest⟩)
  · obtain ⟨r, -, hr⟩ := exists_resultOf hrun
    exact .inl ⟨r, hr, continueRun_terminal hr _⟩

/-- continue_run() reaches its last state by whole steps, at most one for each sample (R130). -/
theorem continueRun_reaches (stops : List Bool) (s : State) :
    ∃ k, k ≤ stops.length ∧ Host.Core.run Sys2Proof.core k s = .next (continueRun stops s).2 := by
  induction stops generalizing s with
  | nil => exact ⟨0, Nat.le_refl 0, rfl⟩
  | cons stop rest ih =>
    rcases continueRun_cases stop rest s with ⟨r, -, e⟩ | ⟨-, e⟩ | ⟨t, ht, e⟩ <;> rw [e]
    · exact ⟨0, Nat.zero_le _, rfl⟩
    · exact ⟨0, Nat.zero_le _, rfl⟩
    · obtain ⟨k, hk, hreach⟩ := ih t
      exact ⟨k + 1, Nat.succ_le_succ hk, (core_run_succ k ht).trans hreach⟩

/-- The result of continue_run() matches its last state's status (R132). -/
theorem continueRun_matches {stops : List Bool} {s t : State} {r : RunResult}
    (h : continueRun stops s = (some r, t)) : ResultMatches r t.status := by
  induction stops generalizing s with
  | nil =>
    obtain ⟨hres, rfl⟩ := Prod.mk.inj h
    exact .inl hres
  | cons stop rest ih =>
    rcases continueRun_cases stop rest s with ⟨q, hq, e⟩ | ⟨hrun, e⟩ | ⟨u, -, e⟩ <;> rw [e] at h
    · cases h
      exact .inl hq
    · cases h
      exact .inr ⟨rfl, hrun⟩
    · exact ih h

/-- The result of run() matches its last state's status (R132). -/
theorem run_matches {stops : List Bool} {s t : State} {r : RunResult} (h : run stops s = (some r, t)) :
    ResultMatches r t.status := by
  by_cases hrun : s.status = .running
  · rw [run_of_running hrun] at h
    exact continueRun_matches h
  · obtain ⟨q, -, hq⟩ := exists_resultOf hrun
    rw [run_terminal hq] at h
    cases h
    exact .inl hq

/-- Settles O46: by induction on the samples, for the result and for the steps. -/
theorem runResultIsTheStatusOfAReachedState : Obligations.RunResultIsTheStatusOfAReachedState := by
  refine fun stops s t r => ⟨fun h => ResultMatches.cases (h.elim continueRun_matches run_matches), fun h => ?_⟩
  obtain ⟨k, hk, hreach⟩ := continueRun_reaches stops s
  exact ⟨k, hk, by rw [hreach, h]⟩

/-! ### The invariant -/

/-- A step keeps the invariant (R51, R64). -/
theorem step_inv {s t : State} (h : s.Inv) (ht : step s = .next t) : t.Inv := everyStepKeepsTheInvariant s t h ht

theorem hostStep_inv {s : State} (h : s.Inv) : (hostStep s).1.Inv := by
  by_cases hrun : s.status = .running
  · obtain ⟨t, ht⟩ := step_total hrun
    rw [hostStep_of_running hrun ht]
    exact step_inv h ht
  · rw [hostStep_of_not_running hrun]
    exact h

/-- continue_run() keeps the invariant, by induction on the samples (R130). -/
theorem continueRun_inv {s : State} (h : s.Inv) (stops : List Bool) : (continueRun stops s).2.Inv := by
  induction stops generalizing s with
  | nil => exact h
  | cons stop rest ih =>
    rcases continueRun_cases stop rest s with ⟨r, -, e⟩ | ⟨-, e⟩ | ⟨t, ht, e⟩ <;> rw [e]
    · exact h
    · exact h
    · exact ih (step_inv h ht)

/-- run() keeps the invariant (R130). -/
theorem run_inv {s : State} (h : s.Inv) (stops : List Bool) : (run stops s).2.Inv := by
  by_cases hrun : s.status = .running
  · rw [run_of_running hrun]
    exact continueRun_inv (s := s.setPc s.entry) (h.of_mem_cfg rfl rfl) stops
  · obtain ⟨r, -, hr⟩ := exists_resultOf hrun
    rw [run_terminal hr]
    exact h

/-- A segment write of bytes that lie in the window keeps the invariant (R63). -/
theorem State.Inv.setMem_writeBytes {s : State} (h : s.Inv) {a : Nat} {bs : List Byte}
    (hb : InWindow s.cfg a bs.length) : (s.setMem (s.mem.writeBytes a bs)).Inv := by
  obtain ⟨hcfg, hwf, hin⟩ := h
  refine ⟨hcfg, Memory.writeBytes_wf hwf a bs, fun cell hcell => ?_⟩
  rcases Memory.mem_writeBytes hcell with hnew | hold
  · exact (⟨by omega, by omega⟩ : InWindow s.cfg cell.1 1)
  · exact hin cell hold

/-- A successful load_segment keeps the invariant (R136). -/
theorem loadSegment_inv {s t : State} {a : Word} {bs : List Byte} (h : s.Inv) (ht : loadSegment a bs s = .ok t) :
    t.Inv := by
  by_cases hb : InWindow s.cfg a.toNat bs.length
  · rw [loadSegment_of_inWindow hb] at ht
    cases ht
    exact h.setMem_writeBytes hb
  · rw [loadSegment_of_not_inWindow hb] at ht
    cases ht

theorem writeIndex_inv {s : State} (h : s.Inv) (i : Fin 33) (v : Nat) : (writeIndex s i v).Inv := by
  obtain ⟨hmem, -, -, hcfg⟩ := writeIndex_frame s i v
  exact h.of_mem_cfg hmem hcfg

/-- Settles O13: reset by the reset state's invariant, the writes to registers and entry because they leave the memory
alone, load_segment by its bounds check, and the runs step by step. -/
theorem hostOperationsKeepTheInvariant : Obligations.HostOperationsKeepTheInvariant := fun _ h =>
  ⟨State.resetWith_inv h.1, fun _ => h.of_mem_cfg rfl rfl, fun _ _ _ ht => loadSegment_inv h ht,
    fun i v => writeIndex_inv h i v, fun _ => h.of_mem_cfg rfl rfl, hostStep_inv h,
    fun stops => ⟨continueRun_inv h stops, run_inv h stops⟩⟩

end Sys2Proof.Machine
end

section
/-!
PROOFS. The upper immediates (41_upper_immediate.md R150, R151), with the two rules that every instruction which computes
a register goes through: its row decodes, and what it does is one write and `pc + 4`.
-/
namespace Sys2Proof.Machine

/-! ### Rows that decode and instructions that compute -/

/-- A word that a row of the table matches is the instruction the row builds (R98). -/
theorem rows_decode {rows : List Row} (h : rows ⊆ decodeTable) :
    rows.Forall fun r => RowDecodes r.mask r.pattern r.build :=
  List.forall_iff_forall_mem.mpr fun _ hr _ hw => decode_of_row (h hr) hw

/-- An instruction that writes `rd` and advances computes what it writes (R124). -/
theorem computes_of_exec {i : Instr} {rd : Reg} {v : State → Word}
    (h : ∀ s, exec i s = writeAndAdvance rd (v s) s) : Computes i rd v :=
  fun s => ⟨_, h s, continueWith_writesReg rd (v s) (nextPc s) s⟩

/-! ### LUI and AUIPC -/

theorem rowsUpper_subset : rowsUpper ⊆ decodeTable := by simp [decodeTable]

/-- imm_U as integer arithmetic (R93). -/
theorem immU_eq_ofNat (imm : BitVec 20) : immU imm = BitVec.ofNat 32 (imm.toNat * 4096) := by
  rw [← immU_toNat, BitVec.ofNat_toNat, BitVec.setWidth_eq]

/-- The sum of AUIPC as integer arithmetic (R151). -/
theorem pc_add_immU_eq_ofNat (pc : Word) (imm : BitVec 20) :
    pc + immU imm = BitVec.ofNat 32 (pc.toNat + imm.toNat * 4096) := by
  rw [BitVec.ofNat_add, BitVec.ofNat_toNat, BitVec.setWidth_eq, immU_eq_ofNat]

theorem exec_lui (rd : Reg) (imm : BitVec 20) (s : State) :
    exec (.lui rd imm) s = writeAndAdvance rd (BitVec.ofNat 32 (imm.toNat * 4096)) s := by
  rw [← immU_eq_ofNat]
  rfl

theorem exec_auipc (rd : Reg) (imm : BitVec 20) (s : State) :
    exec (.auipc rd imm) s = writeAndAdvance rd (BitVec.ofNat 32 (s.pc.toNat + imm.toNat * 4096)) s := by
  rw [← pc_add_immU_eq_ofNat]
  rfl

/-- Settles O20: the two rows are in the table, and each instruction is one write of its value. -/
theorem upperImmediatesComputeTheirValue : Obligations.UpperImmediatesComputeTheirValue := by
  obtain ⟨hlui, hauipc⟩ := rows_decode rowsUpper_subset
  exact ⟨hlui, hauipc, fun rd imm => computes_of_exec (exec_lui rd imm),
    fun rd imm => computes_of_exec (exec_auipc rd imm)⟩

end Sys2Proof.Machine
end

section
/-!
PROOFS. The jumps (42_jumps.md R160, R161), with the check of a target at the next fetch, which no control transfer does
itself (R28, R282).
-/
namespace Sys2Proof.Machine

/-! ### The next fetch -/

/-- Every state's next step checks its program counter (R282). -/
theorem nextFetchChecked (t : State) : NextFetchChecked t := fun hrun hout =>
  ⟨_, step_of_no_fetch hrun (fetchWord_of_not_inWindow hout), setStatus_setsStatus t _⟩

/-! ### JAL and JALR -/

theorem rowsJump_subset : rowsJump ⊆ decodeTable := by simp [decodeTable]

/-- Clearing bit 0 rounds down to an even number (R161). -/
theorem and_clear_bit_zero_eq_ofNat (v : Word) : v &&& 0xFFFFFFFE = BitVec.ofNat 32 (2 * (v.toNat / 2)) :=
  calc v &&& 0xFFFFFFFE
    _ = v >>> 1 <<< 1 := (BitVec.shiftLeft_ushiftRight (x := v) (n := 1)).symm
    _ = BitVec.ofNat 32 ((v >>> 1).toNat * 2 ^ 1) := shiftLeft_eq_ofNat _ 1
    _ = BitVec.ofNat 32 (2 * (v.toNat / 2)) := by
      rw [BitVec.toNat_ushiftRight, Nat.shiftRight_eq_div_pow, pow_one, Nat.mul_comm]

/-- A JALR target as integer arithmetic (R161). -/
theorem jalrTarget_eq (rs1 : Reg) (imm : BitVec 12) (s : State) :
    (s.readReg rs1 + immI imm) &&& 0xFFFFFFFE = BitVec.ofNat 32 (2 * ((basePlus s rs1 imm).toNat / 2)) := by
  rw [and_clear_bit_zero_eq_ofNat, ← loadAddress_eq, loadAddress]

theorem exec_jal (rd : Reg) (off : BitVec 21) (s : State) :
    exec (.jal rd off) s = .next (continueWith rd (nextPc s) (BitVec.ofInt 32 (s.pc.toNat + off.toInt)) s) := by
  rw [← jalTarget_eq]
  rfl

theorem exec_jalr (rd rs1 : Reg) (imm : BitVec 12) (s : State) :
    exec (.jalr rd rs1 imm) s =
      .next (continueWith rd (nextPc s) (BitVec.ofNat 32 (2 * ((basePlus s rs1 imm).toNat / 2))) s) := by
  rw [← jalrTarget_eq]
  rfl

/-- An instruction that writes `rd` and goes to `target` leaves the target to the next fetch (R28, R122). -/
theorem jumps_of_exec {i : Instr} {rd : Reg} {v target : Word} {s : State}
    (h : exec i s = .next (continueWith rd v target s)) :
    ∃ t, exec i s = .next t ∧ NextFetchChecked t ∧ WritesReg s t rd v target :=
  ⟨_, h, nextFetchChecked _, continueWith_writesReg rd v target s⟩

/-- Settles O21: the two rows are in the table, each instruction is one write of its link and one target, and the next
step checks that target as it does every program counter. -/
theorem jumpsLinkAndGoToTheirTarget : Obligations.JumpsLinkAndGoToTheirTarget := by
  obtain ⟨hjal, hjalr⟩ := rows_decode rowsJump_subset
  obtain ⟨-, -, hfunct3, -⟩ := reservedEncodingsAreUnknown
  exact ⟨hjal, hjalr, hfunct3, fun rd off s => jumps_of_exec (exec_jal rd off s),
    fun rd rs1 imm s => jumps_of_exec (exec_jalr rd rs1 imm s)⟩

end Sys2Proof.Machine
end

section
/-!
PROOFS. The immediate ALU instructions (43_alu_immediate.md R171 to R179): each is one write of a value, and each value is
the integer arithmetic of its rule.
-/
namespace Sys2Proof.Machine

/-! ### The rows of OP-IMM -/

theorem rowsAluImm_subset : rowsAluImm ⊆ decodeTable := fun _ h => by simp [decodeTable, h]

/-- Opcode OP-IMM and funct3 001 are SLLI with bits[31:25] zero, or unknown (R99, R177). -/
theorem decode_eq_none_of_slli_funct7 {w : Word} (h : w &&& 0x707F = 0x1013) (h7 : w.extractLsb 31 25 ≠ 0#7) :
    decode w = none := by
  obtain ⟨-, -, -, -, -, -, hslli, -⟩ := reservedEncodingsAreUnknown
  have hop : bits w 6 0 = 0x13 := bits_eq_of_mask h rfl
  have h3 : bits w 14 12 = 1 := bits_eq_of_mask h rfl
  exact hslli w hop h3 h7

/-! ### The values -/

/-- The sum of ADDI as integer arithmetic (R171). -/
theorem add_immI_eq_ofInt (v : Word) (imm : BitVec 12) : v + immI imm = BitVec.ofInt 32 (v.toInt + imm.toInt) := by
  rw [BitVec.ofInt_add, BitVec.ofInt_toInt, immI_eq_ofInt]

/-! ### The nine instructions -/

section
variable (rd rs1 : Reg) (imm : BitVec 12) (sh : BitVec 5) (s : State)

theorem exec_addi : exec (.addi rd rs1 imm) s =
    writeAndAdvance rd (BitVec.ofInt 32 ((s.readReg rs1).toInt + imm.toInt)) s := by
  rw [← add_immI_eq_ofInt]
  rfl

theorem exec_slti : exec (.slti rd rs1 imm) s =
    writeAndAdvance rd (if (s.readReg rs1).toInt < imm.toInt then 1 else 0) s := by
  rw [← immI_toInt, ← oneIf_ltSigned]
  rfl

theorem exec_sltiu : exec (.sltiu rd rs1 imm) s =
    writeAndAdvance rd (if (s.readReg rs1).toNat < (BitVec.ofInt 32 imm.toInt).toNat then 1 else 0) s := by
  rw [← immI_eq_ofInt, ← oneIf_ltUnsigned]
  rfl

theorem exec_xori : exec (.xori rd rs1 imm) s =
    writeAndAdvance rd (s.readReg rs1 ^^^ BitVec.ofInt 32 imm.toInt) s := by
  rw [← immI_eq_ofInt]
  rfl

theorem exec_ori : exec (.ori rd rs1 imm) s =
    writeAndAdvance rd (s.readReg rs1 ||| BitVec.ofInt 32 imm.toInt) s := by
  rw [← immI_eq_ofInt]
  rfl

theorem exec_andi : exec (.andi rd rs1 imm) s =
    writeAndAdvance rd (s.readReg rs1 &&& BitVec.ofInt 32 imm.toInt) s := by
  rw [← immI_eq_ofInt]
  rfl

theorem exec_slli : exec (.slli rd rs1 sh) s =
    writeAndAdvance rd (BitVec.ofNat 32 ((s.readReg rs1).toNat * 2 ^ sh.toNat)) s := by
  rw [← shiftLeft_eq_ofNat]
  rfl

theorem exec_srli : exec (.srli rd rs1 sh) s =
    writeAndAdvance rd (BitVec.ofNat 32 ((s.readReg rs1).toNat / 2 ^ sh.toNat)) s := by
  rw [← ushiftRight_eq_ofNat]
  rfl

theorem exec_srai : exec (.srai rd rs1 sh) s =
    writeAndAdvance rd (BitVec.ofInt 32 ((s.readReg rs1).toInt / 2 ^ sh.toNat)) s := by
  rw [← sshiftRight_eq_ofInt]
  rfl

end

/-- Settles O22: the nine rows are in the table, another funct7 of SLLI is in none, and each instruction is one write of
its value. -/
theorem immediateAluInstructionsCompute : Obligations.ImmediateAluInstructionsCompute := by
  obtain ⟨haddi, hslti, hsltiu, hxori, hori, handi, hslli, hsrli, hsrai⟩ := rows_decode rowsAluImm_subset
  exact ⟨haddi, hslti, hsltiu, hxori, hori, handi, hslli, hsrli, hsrai, fun _ => decode_eq_none_of_slli_funct7,
    fun rd rs1 imm => computes_of_exec (exec_addi rd rs1 imm),
    fun rd rs1 imm => computes_of_exec (exec_slti rd rs1 imm),
    fun rd rs1 imm => computes_of_exec (exec_sltiu rd rs1 imm),
    fun rd rs1 imm => computes_of_exec (exec_xori rd rs1 imm),
    fun rd rs1 imm => computes_of_exec (exec_ori rd rs1 imm),
    fun rd rs1 imm => computes_of_exec (exec_andi rd rs1 imm),
    fun rd rs1 sh => computes_of_exec (exec_slli rd rs1 sh),
    fun rd rs1 sh => computes_of_exec (exec_srli rd rs1 sh),
    fun rd rs1 sh => computes_of_exec (exec_srai rd rs1 sh)⟩

end Sys2Proof.Machine
end

section
/-!
PROOFS. The register ALU instructions (44_alu_register.md R190 to R199): each is one write of a value, and each value is
the integer arithmetic of its rule, a shift by the low five bits of `x[rs2]`.
-/
namespace Sys2Proof.Machine

/-! ### The rows of OP -/

theorem rowsAluReg_subset : rowsAluReg ⊆ decodeTable := fun _ h => by simp [decodeTable, h]

/-! ### The values -/

/-- The difference of SUB as integer arithmetic (R191). -/
theorem sub_eq_ofInt (a b : Word) : a - b = BitVec.ofInt 32 (a.toInt - b.toInt) :=
  BitVec.eq_of_toInt_eq (by rw [BitVec.toInt_sub, BitVec.toInt_ofInt])

/-! ### The ten instructions -/

section
variable (rd rs1 rs2 : Reg) (s : State)

theorem exec_add : exec (.add rd rs1 rs2) s =
    writeAndAdvance rd (BitVec.ofNat 32 ((s.readReg rs1).toNat + (s.readReg rs2).toNat)) s := by
  rw [← BitVec.add_def]
  rfl

theorem exec_sub : exec (.sub rd rs1 rs2) s =
    writeAndAdvance rd (BitVec.ofInt 32 ((s.readReg rs1).toInt - (s.readReg rs2).toInt)) s := by
  rw [← sub_eq_ofInt]
  rfl

theorem exec_sll : exec (.sll rd rs1 rs2) s =
    writeAndAdvance rd (BitVec.ofNat 32 ((s.readReg rs1).toNat * 2 ^ ((s.readReg rs2).toNat % 32))) s := by
  rw [← shiftAmount_eq, ← shiftLeft_eq_ofNat]
  rfl

theorem exec_slt : exec (.slt rd rs1 rs2) s =
    writeAndAdvance rd (if (s.readReg rs1).toInt < (s.readReg rs2).toInt then 1 else 0) s := by
  rw [← oneIf_ltSigned]
  rfl

theorem exec_sltu : exec (.sltu rd rs1 rs2) s =
    writeAndAdvance rd (if (s.readReg rs1).toNat < (s.readReg rs2).toNat then 1 else 0) s := by
  rw [← oneIf_ltUnsigned]
  rfl

theorem exec_xor : exec (.xor rd rs1 rs2) s = writeAndAdvance rd (s.readReg rs1 ^^^ s.readReg rs2) s := rfl

theorem exec_srl : exec (.srl rd rs1 rs2) s =
    writeAndAdvance rd (BitVec.ofNat 32 ((s.readReg rs1).toNat / 2 ^ ((s.readReg rs2).toNat % 32))) s := by
  rw [← shiftAmount_eq, ← ushiftRight_eq_ofNat]
  rfl

theorem exec_sra : exec (.sra rd rs1 rs2) s =
    writeAndAdvance rd (BitVec.ofInt 32 ((s.readReg rs1).toInt / 2 ^ ((s.readReg rs2).toNat % 32))) s := by
  rw [← shiftAmount_eq, ← sshiftRight_eq_ofInt]
  rfl

theorem exec_or : exec (.or rd rs1 rs2) s = writeAndAdvance rd (s.readReg rs1 ||| s.readReg rs2) s := rfl

theorem exec_and : exec (.and rd rs1 rs2) s = writeAndAdvance rd (s.readReg rs1 &&& s.readReg rs2) s := rfl

end

/-- Settles O23: the ten rows are in the table, and each instruction is one write of its value. -/
theorem registerAluInstructionsCompute : Obligations.RegisterAluInstructionsCompute := by
  obtain ⟨hadd, hsub, hsll, hslt, hsltu, hxor, hsrl, hsra, hor, hand⟩ := rows_decode rowsAluReg_subset
  exact ⟨hadd, hsub, hsll, hslt, hsltu, hxor, hsrl, hsra, hor, hand,
    fun rd rs1 rs2 => computes_of_exec (exec_add rd rs1 rs2),
    fun rd rs1 rs2 => computes_of_exec (exec_sub rd rs1 rs2),
    fun rd rs1 rs2 => computes_of_exec (exec_sll rd rs1 rs2),
    fun rd rs1 rs2 => computes_of_exec (exec_slt rd rs1 rs2),
    fun rd rs1 rs2 => computes_of_exec (exec_sltu rd rs1 rs2),
    fun rd rs1 rs2 => computes_of_exec (exec_xor rd rs1 rs2),
    fun rd rs1 rs2 => computes_of_exec (exec_srl rd rs1 rs2),
    fun rd rs1 rs2 => computes_of_exec (exec_sra rd rs1 rs2),
    fun rd rs1 rs2 => computes_of_exec (exec_or rd rs1 rs2),
    fun rd rs1 rs2 => computes_of_exec (exec_and rd rs1 rs2)⟩

end Sys2Proof.Machine
end

section
/-!
PROOFS. The branches (45_branches.md R210 to R216): each is one choice between two program counters, and each condition is
the comparison of its rule.
-/
namespace Sys2Proof.Machine

/-! ### The rows of BRANCH -/

theorem rowsBranch_subset : rowsBranch ⊆ decodeTable := fun _ h => by simp [decodeTable, h]

/-! ### The conditions -/

/-- The condition of BGE as integer arithmetic (R213). -/
theorem not_ltSigned_iff (a b : Word) : (!ltSigned a b) = true ↔ b.toInt ≤ a.toInt := by
  rw [Bool.not_eq_true', ← Bool.not_eq_true, ltSigned_iff, not_lt]

/-- The condition of BGEU as integer arithmetic (R215). -/
theorem not_ltUnsigned_iff (a b : Word) : (!ltUnsigned a b) = true ↔ b.toNat ≤ a.toNat := by
  rw [Bool.not_eq_true', ← Bool.not_eq_true, ltUnsigned_iff, not_lt]

/-! ### The two program counters -/

/-- A taken branch goes to `pc + off` (R216). -/
theorem branchIf_of_true {cond : Bool} (hc : cond = true) (off : BitVec 13) (s : State) :
    branchIf cond off s = .next (s.setPc (BitVec.ofInt 32 (s.pc.toNat + off.toInt))) := by
  rw [branchIf, if_pos hc, branchTarget_eq]

/-- A branch that is not taken goes on at `pc + 4` (R216). -/
theorem branchIf_of_not_true {cond : Bool} (hc : ¬ cond = true) (off : BitVec 13) (s : State) :
    branchIf cond off s = .next (s.setPc (nextPc s)) := by
  rw [branchIf, if_neg hc]

/-- An instruction that is a `branchIf` sets the program counter by its condition, and leaves the check of it to the next
fetch (R28, R216). -/
theorem branchesIf_of_exec {i : Instr} {s : State} {off : BitVec 13} {cond : Bool} {P : Prop}
    (h : exec i s = branchIf cond off s) (hcond : cond = true ↔ P) : BranchesIf i s off P := by
  by_cases hc : cond = true
  · exact ⟨_, h.trans (branchIf_of_true hc off s), nextFetchChecked _, fun _ => setPc_setsPc s _,
      fun hn => absurd (hcond.mp hc) hn⟩
  · exact ⟨_, h.trans (branchIf_of_not_true hc off s), nextFetchChecked _, fun hp => absurd (hcond.mpr hp) hc,
      fun _ => setPc_setsPc s _⟩

/-- Settles O24: the six rows are in the table, another funct3 is in none, and each instruction is a `branchIf` whose
condition is its rule's comparison. -/
theorem branchesGoToTargetOrNext : Obligations.BranchesGoToTargetOrNext := by
  obtain ⟨hbeq, hbne, hblt, hbge, hbltu, hbgeu⟩ := rows_decode rowsBranch_subset
  obtain ⟨-, -, -, hfunct3, -⟩ := reservedEncodingsAreUnknown
  exact ⟨hbeq, hbne, hblt, hbge, hbltu, hbgeu, hfunct3,
    fun _ _ _ _ => branchesIf_of_exec rfl beq_iff_eq,
    fun _ _ _ _ => branchesIf_of_exec rfl bne_iff_ne,
    fun _ _ _ _ => branchesIf_of_exec rfl (ltSigned_iff _ _),
    fun _ _ _ _ => branchesIf_of_exec rfl (not_ltSigned_iff _ _),
    fun _ _ _ _ => branchesIf_of_exec rfl (ltUnsigned_iff _ _),
    fun _ _ _ _ => branchesIf_of_exec rfl (not_ltUnsigned_iff _ _)⟩

end Sys2Proof.Machine
end

section
/-!
PROOFS. The loads and stores (46_load_store.md R231 to R239): each load is a `loadWith` and each store a `storeWith`, whose
two ends are the two sides of the bounds check, and each loaded value is the extension of its rule.
-/
namespace Sys2Proof.Machine

/-! ### The rows of LOAD and STORE -/

theorem rowsLoad_subset : rowsLoad ⊆ decodeTable := fun _ h => by simp [decodeTable, h]

theorem rowsStore_subset : rowsStore ⊆ decodeTable := fun _ h => by simp [decodeTable, h]

/-! ### The values -/

/-- The sign extension of LB and LH, of the bytes they read (R231, R232). -/
theorem sext_setWidth {n : Nat} (b : BitVec n) (hn : n ≤ 32) : sext n (b.setWidth 32) = b.signExtend 32 := by
  rw [sext, BitVec.setWidth_setWidth_of_le b hn, BitVec.setWidth_eq]

/-- The zero extension of LBU and LHU, of the bytes they read (R234, R235). -/
theorem zext_setWidth {n : Nat} (b : BitVec n) (hn : n ≤ 32) : zext n (b.setWidth 32) = b.setWidth 32 := by
  rw [zext, BitVec.setWidth_setWidth_of_le b hn, BitVec.setWidth_eq]

/-! ### The loads -/

/-- An instruction that is a `loadWith` ends by the bounds check (R231 to R235, R283). -/
theorem loadsOrFails_of_exec {i : Instr} {n : Nat} {ext : Word → Word} {rd rs1 : Reg} {imm : BitVec 12} {s : State}
    {a v : Word} (h : exec i s = loadWith i n ext rd rs1 imm s) (ha : loadAddress rs1 imm s = a)
    (hv : ext (BitVec.ofNat 32 (s.mem.readLE a.toNat n)) = v) : LoadsOrFails i s a n rd v := by
  refine ⟨fun hb => h ▸ loadWith_writesReg ha hb hv, fun hb => ?_⟩
  subst ha
  exact ⟨_, h.trans (loadWith_of_not_inWindow hb), setStatus_setsStatus s _⟩

/-- Settles O25: the five rows are in the table, and each instruction is a `loadWith` whose value is the extension of the
bytes it reads. -/
theorem loadsExtendTheBytesTheyRead : Obligations.LoadsExtendTheBytesTheyRead := by
  obtain ⟨hlb, hlh, hlw, hlbu, hlhu⟩ := rows_decode rowsLoad_subset
  refine ⟨hlb, hlh, hlw, hlbu, hlhu, fun rd rs1 imm s => ?lb, fun rd rs1 imm s => ?lh, fun rd rs1 imm s => ?lw,
    fun rd rs1 imm s => ?lbu, fun rd rs1 imm s => ?lhu⟩
  all_goals refine loadsOrFails_of_exec rfl (loadAddress_eq rs1 imm s) ?_
  case lb => rw [readLE_one, sext_setWidth _ (by decide)]
  case lh => rw [readLE_two, sext_setWidth _ (by decide)]
  case lw => rw [readLE_four, id]
  case lbu => rw [readLE_one, zext_setWidth _ (by decide)]
  case lhu => rw [readLE_two, zext_setWidth _ (by decide)]

/-- Every load ends by the bounds check at its address, whatever its destination (R231 to R235, R283). -/
theorem exists_loadsOrFails_of_loadOf {i : Instr} {s : State} {a : Word} {n : Nat} {rd : Reg}
    (hd : destOf i = some rd) (h : loadOf i s = some (a, n)) : ∃ v, LoadsOrFails i s a n rd v := by
  cases i
  case lb | lh | lw | lbu | lhu => cases hd; cases h; exact ⟨_, loadsOrFails_of_exec rfl rfl rfl⟩
  all_goals cases h

/-- A write to x0 is discarded, so only the program counter changes (R22, R239). -/
theorem WritesReg.setsPc {s t : State} {v target : Word} (h : WritesReg s t 0 v target) : SetsPc s t target where
  regs r := by
    by_cases hr : r = 0
    · rw [hr]
      exact h.zero.trans s.readReg_zero.symm
    · exact h.regs r hr
  pc := h.pc
  mem := h.mem
  status := h.status
  entry := h.entry
  cfg := h.cfg

/-- Settles O26: a load to x0 ends as every load does, and the register write of that end is discarded. -/
theorem loadToZeroStillChecksItsAddress : Obligations.LoadToZeroStillChecksItsAddress := by
  intro i s a n hd hl
  obtain ⟨v, hin, hout⟩ := exists_loadsOrFails_of_loadOf hd hl
  refine ⟨fun hb => ?_, hout, accessOf_of_loadOf hl⟩
  obtain ⟨t, ht, hw⟩ := hin hb
  exact ⟨t, ht, hw.setsPc⟩

/-! ### The stores -/

/-- An instruction that is a `storeWith` ends by the bounds check (R236 to R238, R283). -/
theorem storesOrFails_of_exec {i : Instr} {n : Nat} {rs1 rs2 : Reg} {imm : BitVec 12} {s : State}
    (h : exec i s = storeWith i n rs1 rs2 imm s) (hm : Memory.wf s.mem) :
    StoresOrFails i s (storeAddress rs1 imm s) n (s.readReg rs2) :=
  ⟨fun hb => ⟨_, h.trans (storeWith_of_inWindow hb), writeLE_stores hm _ n _⟩,
    fun hb => ⟨_, h.trans (storeWith_of_not_inWindow hb), setStatus_setsStatus s _⟩⟩

/-- Settles O27: the three rows are in the table, the address is base plus offset, and each instruction is a `storeWith`. -/
theorem storesWriteTheirLowBytes : Obligations.StoresWriteTheirLowBytes := by
  obtain ⟨hsb, hsh, hsw⟩ := rows_decode rowsStore_subset
  exact ⟨hsb, hsh, hsw, storeAddress_eq,
    fun _ _ _ _ => storesOrFails_of_exec rfl,
    fun _ _ _ _ => storesOrFails_of_exec rfl,
    fun _ _ _ _ => storesOrFails_of_exec rfl⟩

end Sys2Proof.Machine
end

section
/-!
PROOFS. Known and unknown words: what a word decodes to, read off the instruction's own word and off the table of the spec
(30_encoding.md R98, R104), and the end of the step of an unknown word (60_exceptions.md R284).
-/
namespace Sys2Proof
open Machine

/-- A word is unknown exactly when it is outside spec/opcode_table.json (R99, R284). -/
theorem decode_eq_none_iff_opcodeTableRows (w : Word) :
    decode w = none ↔ ∀ p ∈ opcodeTableRows, w &&& p.1 ≠ p.2 := by
  rw [decode_eq_none_iff, opcodeTableRows_eq, List.forall_mem_map]

/-- Settles O4: the decoder's table is the spec's, and the step of an unknown word sets the status alone. -/
theorem unknownWordsEndTheRun : Obligations.UnknownWordsEndTheRun := by
  refine ⟨fun s w hrun hw hout => ?_, decode_eq_none_iff_opcodeTableRows, by decide, by decide⟩
  have hd : decode w = none := (decode_eq_none_iff_opcodeTableRows w).mpr hout
  exact ⟨_, step_of_unknown hrun hw hd, setStatus_setsStatus s _⟩

/-- The word of a well-formed instruction decodes to it (R98). -/
theorem decode_of_encode_eq {i : Instr} {w : Word} (hi : i.wf = true) (h : encode i = w) : decode w = some i :=
  h ▸ decode_encode hi

/-- A word that decodes to an instruction is that instruction's word (R104). -/
theorem eq_encode_of_decode {i : Instr} {w : Word} (h : decode w = some i) : w = encode i :=
  (decodeThenEncodeGivesTheWordBack w i h).2.symm

/-- Settles O7: each word is the word of the instruction beside it. -/
theorem wordsOfTheSpecDecode : Obligations.WordsOfTheSpecDecode := by
  unfold Obligations.WordsOfTheSpecDecode
  and_intros <;> exact decode_of_encode_eq rfl rfl

end Sys2Proof
end

section
/-!
PROOFS. The SYSTEM and MISC-MEM instructions (47_system.md, 48_misc_mem.md): the exit call, the breakpoint, and the twelve
instructions that only advance.
-/
namespace Sys2Proof.Machine

/-! ### The rows of SYSTEM and MISC-MEM -/

theorem rowsSystem_subset : rowsSystem ⊆ decodeTable := fun _ h => by simp [decodeTable, h]

theorem rowsFence_subset : rowsFence ⊆ decodeTable := fun _ h => by simp [decodeTable, h]

/-! ### ECALL and EBREAK -/

/-- Settles O28: ECALL's row is its one word, and each of the three cases of the call sets the status alone. -/
theorem environmentCallExitsOrFails : Obligations.EnvironmentCallExitsOrFails := by
  obtain ⟨hecall, -⟩ := rows_decode rowsSystem_subset
  refine ⟨hecall, fun _ => eq_encode_of_decode, fun s =>
    ⟨fun h h0 => ?success, fun h h0 => ?failure, fun h => ?other⟩⟩
  case success => exact ⟨_, execEcall_of_success h h0, setStatus_setsStatus s _⟩
  case failure => exact ⟨_, execEcall_of_failure h h0, setStatus_setsStatus s _, fun _ => nofun⟩
  case other => exact ⟨_, execEcall_of_unsupported h, setStatus_setsStatus s _⟩

/-- Settles O29: EBREAK sets the status alone, to one from which there is no step. -/
theorem breakpointEndsTheRun : Obligations.BreakpointEndsTheRun := by
  obtain ⟨-, hebreak, -⟩ := rows_decode rowsSystem_subset
  exact ⟨hebreak, fun s => ⟨_, rfl, setStatus_setsStatus s _, hostStep_of_not_running nofun⟩⟩

/-! ### The instructions that only advance -/

/-- What `advanceOnly` does is `pc <- pc + 4` and nothing else (R254 to R264, R270, R271). -/
theorem onlyAdvances_of_exec {i : Instr} (h : ∀ s, exec i s = advanceOnly s) : OnlyAdvances i :=
  fun s => ⟨_, h s, setPc_setsPc s (nextPc s)⟩

/-- Settles O30: the four rows are in the table, and each instruction only advances. -/
theorem privilegedInstructionsOnlyAdvance : Obligations.PrivilegedInstructionsOnlyAdvance := by
  obtain ⟨-, -, hmret, hsret, hwfi, hsfence, -⟩ := rows_decode rowsSystem_subset
  exact ⟨hmret, hsret, hwfi, hsfence, onlyAdvances_of_exec fun _ => rfl, onlyAdvances_of_exec fun _ => rfl,
    onlyAdvances_of_exec fun _ => rfl, fun _ _ => onlyAdvances_of_exec fun _ => rfl⟩

/-- Settles O31: the six rows are in the table, and each instruction only advances. -/
theorem csrInstructionsOnlyAdvance : Obligations.CsrInstructionsOnlyAdvance := by
  obtain ⟨-, -, -, -, -, -, hrw, hrs, hrc, hrwi, hrsi, hrci⟩ := rows_decode rowsSystem_subset
  refine ⟨hrw, hrs, hrc, hrwi, hrsi, hrci, fun _ _ _ => ⟨?csrrw, ?csrrs, ?csrrc⟩,
    fun _ _ _ => ⟨?csrrwi, ?csrrsi, ?csrrci⟩⟩ <;>
    exact onlyAdvances_of_exec fun _ => rfl

/-- Settles O32: the two rows are in the table and are the only ones of their opcode, and each instruction only advances. -/
theorem fencesOnlyAdvance : Obligations.FencesOnlyAdvance := by
  obtain ⟨hfence, hfenceI⟩ := rows_decode rowsFence_subset
  exact ⟨hfence, hfenceI, fun _ => decode_eq_none_of_opcode_field (P := (2 ≤ ·.toNat)) (by decide),
    fun _ _ _ _ _ => onlyAdvances_of_exec fun _ => rfl, fun _ _ _ => onlyAdvances_of_exec fun _ => rfl⟩

end Sys2Proof.Machine
end

section
/-!
PROOFS. The steps that end a run (60_exceptions.md R281 to R290, 70_reset_and_hazards.md R321): each status that a step can
end with has its causes, and a step ends with the status exactly when one of them holds.
-/
namespace Sys2Proof.Machine

/-! ### The causes of an end -/

/-- A load is a `loadWith` at its address and width (R231 to R235). -/
theorem exists_loadWith_of_loadOf {i : Instr} {s : State} {a : Word} {n : Nat} (h : loadOf i s = some (a, n)) :
    ∃ ext rd rs1 imm, loadAddress rs1 imm s = a ∧ exec i s = loadWith i n ext rd rs1 imm s := by
  cases i
  case lb | lh | lw | lbu | lhu => cases h; exact ⟨_, _, _, _, rfl, rfl⟩
  all_goals cases h

/-- An instruction that has a cause to end the run sets the status alone (R250 to R253, R283). -/
theorem exec_of_endCause {i : Instr} {s : State} {st : Status} (h : EndCause s i st) :
    exec i s = .next (s.setStatus st) := by
  cases h with
  | loadOut hl hb =>
    obtain ⟨ext, rd, rs1, imm, rfl, he⟩ := exists_loadWith_of_loadOf hl
    exact he.trans (loadWith_of_not_inWindow hb)
  | storeOut hs hb =>
    obtain ⟨rs1, rs2, imm, rfl, he, -⟩ := exists_storeWith_of_storeOf hs
    exact he.trans (storeWith_of_not_inWindow hb)
  | exitSuccess h h0 => exact execEcall_of_success h h0
  | exitFailure h h0 => exact execEcall_of_failure h h0
  | unsupportedCall h => exact execEcall_of_unsupported h
  | breakpoint => rfl

/-- Why a step ends the run, and with which status: the fetch, the decoding, or the instruction whose word was fetched, in
that order (R290). -/
inductive StepCause (s : State) : Status → Prop where
  | fetchOut (hw : fetchWord s = none) : StepCause s (outOfBoundsStatus .fetch s.pc s.pc none)
  | unknown {w : Word} (hw : fetchWord s = some w) (hd : decode w = none) :
      StepCause s (.fatal { kind := .unknownInstruction, pc := s.pc, word := some w })
  | instr {i : Instr} {st : Status} (hw : fetchWord s = some (encode i)) (hi : i.wf = true) (h : EndCause s i st) :
      StepCause s st

/-- A step that has a cause to end the run sets the status alone. -/
theorem step_of_stepCause {s : State} {st : Status} (hrun : s.status = .running) (h : StepCause s st) :
    step s = .next (s.setStatus st) := by
  cases h with
  | fetchOut hw => exact step_of_no_fetch hrun hw
  | unknown hw hd => exact step_of_unknown hrun hw hd
  | instr hw hi h => exact (step_of_decode hrun hw (decode_encode hi)).trans (exec_of_endCause h)

/-- An instruction that ends the run has a cause to. -/
theorem endCause_of_exec {i : Instr} {s t : State} (hrun : s.status = .running) (h : exec i s = .next t)
    (hend : t.status ≠ .running) : EndCause s i t.status := by
  cases exec_cases h with
  | writes v target => exact absurd ((continueWith_writesReg _ v target s).status.trans hrun) hend
  | continues | stores => exact absurd hrun hend
  | ends hc => exact hc

/-- A step that ends the run has a cause to. -/
theorem stepCause_of_step {s t : State} (h : step s = .next t) (hend : t.status ≠ .running) :
    StepCause s t.status := by
  have hrun := running_of_step h
  rcases step_running hrun with ⟨hw, e⟩ | ⟨w, hw, hd, e⟩ | ⟨w, i, hw, hd, e⟩ <;> rw [e] at h
  · cases h
    exact .fetchOut hw
  · cases h
    exact .unknown hw hd
  · obtain ⟨hi, rfl⟩ := decodeThenEncodeGivesTheWordBack w i hd
    exact .instr hw hi (endCause_of_exec hrun h hend)

/-- A step ends the run with a status exactly when it has a cause to. -/
theorem step_status_iff {s t : State} {st : Status} (h : step s = .next t) (hst : st ≠ .running) :
    t.status = st ↔ StepCause s st := by
  refine ⟨fun e => e ▸ stepCause_of_step h (e.trans_ne hst), fun hc => ?_⟩
  cases (step_of_stepCause (running_of_step h) hc).symm.trans h
  rfl

/-- A running state has a step that ends the run with a status exactly when it has a cause to. -/
theorem exists_step_status_iff {s : State} {st : Status} (hrun : s.status = .running) (hst : st ≠ .running) :
    (∃ t, step s = .next t ∧ t.status = st) ↔ StepCause s st :=
  ⟨fun ⟨_, ht, e⟩ => (step_status_iff ht hst).mp e, fun hc => ⟨_, step_of_stepCause hrun hc, rfl⟩⟩

/-! ### The halts -/

/-- The exit call with a0 = 0 is the only cause of success (R250). -/
theorem stepCause_haltedSuccess_iff (s : State) :
    StepCause s .haltedSuccess ↔ fetchWord s = some 0x00000073 ∧ s.readReg 17 = 93 ∧ s.readReg 10 = 0 := by
  constructor
  · intro h
    cases h with
    | instr hw _ hend =>
      cases hend with
      | exitSuccess h17 h10 => exact ⟨hw, h17, h10⟩
  · rintro ⟨hw, h17, h10⟩
    exact .instr (i := .ecall) hw rfl (.exitSuccess h17 h10)

/-- The exit call with a0 ≠ 0 is the only cause of a failure code (R251). -/
theorem stepCause_haltedFailure_iff (s : State) (code : Word) :
    StepCause s (.haltedFailure code) ↔
      fetchWord s = some 0x00000073 ∧ s.readReg 17 = 93 ∧ s.readReg 10 ≠ 0 ∧ code = s.readReg s.cfg.failCodeReg := by
  constructor
  · intro h
    cases h with
    | instr hw _ hend =>
      cases hend with
      | exitFailure h17 h10 => exact ⟨hw, h17, h10, rfl⟩
  · rintro ⟨hw, h17, h10, rfl⟩
    exact .instr (i := .ecall) hw rfl (.exitFailure h17 h10)

/-- Settles O43: the exit call is the only cause of a halt. -/
theorem onlyTheExitCallHalts : Obligations.OnlyTheExitCallHalts := fun s _ _ h =>
  ⟨(step_status_iff (st := .haltedSuccess) h nofun).trans (stepCause_haltedSuccess_iff s),
    fun code => (step_status_iff (st := .haltedFailure code) h nofun).trans (stepCause_haltedFailure_iff s code)⟩

/-! ### The fatal errors -/

/-- A fetch fails exactly with a byte outside the window (R57, R282). -/
theorem fetchWord_eq_none_iff (s : State) : fetchWord s = none ↔ ¬ InWindow s.cfg s.pc.toNat 4 := by
  refine ⟨fun h hb => ?_, fetchWord_of_not_inWindow⟩
  rw [fetchWord_of_inWindow hb] at h
  cases h

/-- Settles O42: the causes of a fatal error are the rows of the table. -/
theorem fatalErrorsAreExactlyTheTable : Obligations.FatalErrorsAreExactlyTheTable := by
  intro s info hrun
  rw [exists_step_status_iff (st := .fatal info) hrun nofun]
  constructor
  · intro h
    cases h with
    | fetchOut hw => exact .inl ⟨(fetchWord_eq_none_iff s).mp hw, rfl⟩
    | unknown hw hd => exact .inr ⟨_, hw, rfl, rfl, .inl ⟨hd, rfl⟩⟩
    | instr hw hi hend =>
      have hd := decode_encode hi
      cases hend with
      | loadOut hl hb => exact .inr ⟨_, hw, rfl, rfl, .inr (.inl ⟨_, _, _, hd, hl, hb, rfl⟩)⟩
      | storeOut hs hb => exact .inr ⟨_, hw, rfl, rfl, .inr (.inr (.inl ⟨_, _, _, hd, hs, hb, rfl⟩))⟩
      | unsupportedCall h17 => exact .inr ⟨_, hw, rfl, rfl, .inr (.inr (.inr (.inl ⟨rfl, h17, rfl⟩)))⟩
      | breakpoint => exact .inr ⟨_, hw, rfl, rfl, .inr (.inr (.inr (.inr ⟨rfl, rfl⟩)))⟩
  · rintro (⟨hb, rfl⟩ | ⟨w, hw, hpc, hword, hrow⟩)
    · exact .fetchOut ((fetchWord_eq_none_iff s).mpr hb)
    · obtain ⟨kind, pc, word⟩ := info
      simp only at hpc hword hrow
      subst hpc hword
      rcases hrow with ⟨hd, rfl⟩ | ⟨i, a, n, hd, hl, hb, rfl⟩ | ⟨i, a, n, hd, hs, hb, rfl⟩ |
        ⟨rfl, h17, rfl⟩ | ⟨rfl, rfl⟩
      · exact .unknown hw hd
      · obtain ⟨hi, rfl⟩ := decodeThenEncodeGivesTheWordBack w i hd
        exact .instr hw hi (.loadOut hl hb)
      · obtain ⟨hi, rfl⟩ := decodeThenEncodeGivesTheWordBack w i hd
        exact .instr hw hi (.storeOut hs hb)
      · exact .instr (i := .ecall) hw rfl (.unsupportedCall h17)
      · exact .instr (i := .ebreak) hw rfl .breakpoint

end Sys2Proof.Machine
end

section
/-!
PROOFS. The loading convention of the model (70_reset_and_hazards.md R314, log 5): a placed word lies in the window, is the
word the next fetch reads, and leaves the rest of the state alone.
-/
namespace Sys2Proof.Machine

/-- Placing a word is a write of its four bytes, and of pc and status (R314). -/
theorem withFetchWord_eq (s : State) (w : Word) :
    s.withFetchWord 32 w.toNat =
      ((s.setMem (s.mem.writeLE (fetchSlot s).toNat 4 w)).setPc (fetchSlot s)).setStatus .running := by
  have hw : tableWord 32 w.toNat = w := by
    rw [tableWord, Nat.mod_eq_of_lt w.isLt, BitVec.ofNat_toNat, BitVec.setWidth_eq]
  rw [State.withFetchWord, hw]
  rfl

/-- The four bytes of the placed word lie in the window (R11). -/
theorem fetchSlot_inWindow {s : State} (h : validConfig s.cfg) : InWindow s.cfg (fetchSlot s).toNat 4 := by
  unfold fetchSlot
  split
  · next hb => exact (inBounds_iff _ _ _).mp hb
  · obtain ⟨hsize, htop, -⟩ := h
    rw [BitVec.toNat_ofNat, Nat.mod_eq_of_lt (by omega)]
    exact ⟨Nat.le_refl _, by omega⟩

/-- The placed word is the one the next fetch reads (R57). -/
theorem fetchWord_withFetchWord {s : State} (h : s.Inv) (w : Word) :
    fetchWord (s.withFetchWord 32 w.toNat) = some w := by
  obtain ⟨hcfg, hwf, -⟩ := h
  rw [withFetchWord_eq, fetchWord_of_inWindow (fetchSlot_inWindow hcfg)]
  exact congrArg some (Memory.ofNat_readLE_writeLE_four hwf _ w)

/-- Settles O47: the next fetch reads the placed word, which decodes to its instruction. -/
theorem placedInstructionIsTheNextOneRun : Obligations.PlacedInstructionIsTheNextOneRun := by
  intro s i h hi
  refine ⟨step_of_decode rfl (fetchWord_withFetchWord h _) (decode_encode hi), ?_, fun _ => rfl,
    fun a ha => ?_, rfl, rfl⟩
  · rw [withFetchWord_eq]
    exact (h.setMem_writeLE _ (fetchSlot_inWindow h.1)).of_mem_cfg rfl rfl
  · exact Memory.read_writeLE_other s.mem _ ha

end Sys2Proof.Machine
end
